-- ==== Sys2Proof/Word.lean ====
section
/-! DEFINITION. The data types of the block: words, bytes, blocks, hash states, command words. -/

namespace Sys2Proof

/-- A 32-bit unsigned word (00_scope.md R6, R8). -/
abbrev Word := BitVec 32

/-- A byte (00_scope.md R6). -/
abbrev Byte := BitVec 8

/-- The bit counter's width and the width of the padding's length field (00_scope.md R6). -/
abbrev BitCount := BitVec 64

/-- The eight-word HashState `H[0..7]` (10_state.md R21). -/
abbrev HashState := Vector Word 8

/-- One 64-byte block, byte 0 the first in the byte stream (00_scope.md section 6, "Block"). -/
abbrev Block := Vector Byte 64

/-- The 10-bit command word `cmd[9:0]` (30_encoding.md R81). -/
abbrev CmdWord := BitVec 10

end Sys2Proof
end

