-- ==== Sys2Proof/Syntax.lean ====
section
/-! DEFINITION. The commands of the block and the lines of the spec's assembler notation, as syntax. -/

namespace Sys2Proof

/-- The commands, one constructor per row of `opcode_table.json` (30_encoding.md R80, R82). INIT, FINAL and the reserved
word have no operand: their `data` bits are don't-care, and all 256 words of such a row are the same command (R83, R84,
93_implementation_defined.md U10). -/
inductive Instr where
  /-- INIT: the source's `new()` (42_engine_feed.md R150). -/
  | init
  /-- FEED: one byte of the source's `feed` (42_engine_feed.md R151). -/
  | feed (data : Byte)
  /-- FINAL: the source's `finalize()` (43_engine_finalize.md R170). -/
  | final
  /-- RESERVED: any word with `op = 0b11` (30_encoding.md R84, 60_exceptions.md R204). -/
  | reserved
  deriving DecidableEq, Repr

/-- A `<byte>` operand of the assembler notation (30_encoding.md R89). -/
inductive ByteOperand where
  /-- A hexadecimal `0x00 .. 0xFF` or decimal `0 .. 255` numeral. -/
  | number (n : Nat)
  /-- One printable ASCII character in single quotes. -/
  | char (c : Char)
  deriving DecidableEq, Repr

/-- One line of the assembler notation: the three commands of 30_encoding.md R89 and the pseudo-instructions of R90. -/
inductive AsmLine where
  /-- `INIT` -/
  | init
  /-- `FEED <byte>` -/
  | feed (b : ByteOperand)
  /-- `FINAL` -/
  | final
  /-- `FEEDS "text"`: one FEED per character. Which characters the text may hold is DESIGN CHOICE, log 8. -/
  | feeds (text : List Char)
  /-- `FEEDX b0 b1 ... bk`: one FEED per listed byte. -/
  | feedx (bytes : List Nat)
  /-- `FEEDN <count>, <byte>`: the byte, count times. -/
  | feedn (count : Nat) (b : ByteOperand)
  /-- `.cmd <word>`: the raw 10-bit word. -/
  | cmd (word : Nat)
  deriving DecidableEq, Repr

end Sys2Proof
end

