-- ==== Sys2Proof/WellFormed.lean ====
section
/-! DEFINITION. Which commands a host may use and which assembler lines are legal. -/

namespace Sys2Proof

/-- A command a host may issue: INIT, FEED of any byte ("every one of the 256 values is a legal message byte",
30_encoding.md R83) and FINAL. The reserved word is decoded and answered, but "a host must not use it" (R84). -/
def Instr.wellFormed : Instr → Bool
  | .init => true
  | .feed _ => true
  | .final => true
  | .reserved => false

/-- A printable ASCII character, the only kind that may stand in single quotes (30_encoding.md R89). -/
def printableAscii (c : Char) : Bool := 0x20 ≤ c.toNat && c.toNat ≤ 0x7e

/-- A `<byte>` is `0 .. 255` or a printable ASCII character (30_encoding.md R89). -/
def ByteOperand.wellFormed : ByteOperand → Bool
  | .number n => n ≤ 255
  | .char c => printableAscii c

/-- A line's operands are in range (30_encoding.md R89, R90): bytes are bytes, text is ASCII, a raw word has 10 bits.
DESIGN CHOICE, log 8: R90 gives each character of FEEDS text "as its ASCII code" and does not say which characters the
text may hold; here, as between R89's single quotes, only printable ones (`0x20` .. `0x7e`), so a tab is refused. -/
def AsmLine.wellFormed : AsmLine → Bool
  | .init => true
  | .feed b => b.wellFormed
  | .final => true
  | .feeds text => text.all printableAscii
  | .feedx bytes => !bytes.isEmpty && bytes.all (· ≤ 255)
  | .feedn _ b => b.wellFormed
  | .cmd word => word < 1024

end Sys2Proof
end

