-- ==== Sys2Proof/Decode.lean ====
section
/-! DEFINITION. The decoder, the encoder, the opcode map as a table, and the host's view of decoding. -/

namespace Sys2Proof

/-- The `op` field, `cmd[9:8]` (30_encoding.md R81). -/
def opField (w : CmdWord) : BitVec 2 := w.extractLsb' 8 2

/-- The `data` field, `cmd[7:0]` (30_encoding.md R81, R83). -/
def dataField (w : CmdWord) : Byte := w.extractLsb' 0 8

/-- The word of format C with the given fields (30_encoding.md R81). -/
def formatC (op : BitVec 2) (data : Byte) : CmdWord := op ++ data

/-- Decoding: a total function of the ten bits that depends on `cmd[9:8]` alone, whatever the phase, with the reserved
opcode tested first (30_encoding.md R82, R88, R91). -/
def decodeWord (w : CmdWord) : Instr :=
  if opField w = 0b11 then .reserved
  else if opField w = 0b00 then .init
  else if opField w = 0b01 then .feed (dataField w)
  else .final

/-- Why a number spells no command word. -/
inductive DecodeError where
  /-- The number has a bit above bit 9: no such word can stand on the 10-bit port `cmd` (30_encoding.md R81). -/
  | notTenBits
  deriving DecidableEq, Repr

/-- The command word a number spells, refused by name when it has more than ten bits. -/
def commandWord (n : Nat) : Except DecodeError CmdWord :=
  if n < 1024 then .ok (BitVec.ofNat 10 n) else .error .notTenBits

/-- Decoding of any number. -/
def decodeNat (n : Nat) : Except DecodeError Instr :=
  match commandWord n with
  | .ok w => .ok (decodeWord w)
  | .error e => .error e

/-- The host's view: the first `nbits` bits of `w`, every bit above them 0, given to the decoder. -/
def decodeTableWord (nbits w : Nat) : Option Instr :=
  match decodeNat (w % 2 ^ nbits) with
  | .ok i => some i
  | .error _ => none

/-- The word the spec's assembler emits: `data = 0` for INIT and FINAL (30_encoding.md R83, R89), and `0x300`, the lowest
reserved word, for RESERVED (log 5). -/
def encode : Instr → CmdWord
  | .init => formatC 0b00 0x00
  | .feed data => formatC 0b01 data
  | .final => formatC 0b10 0x00
  | .reserved => formatC 0b11 0x00

/-- A row of the opcode map: a word spells the row's command when `w and mask = match` (30_encoding.md R82). -/
structure OpcodeRow where
  mnemonic : String
  matchBits : CmdWord
  mask : CmdWord
  deriving DecidableEq, Repr

/-- Whether a word spells the command of a row (30_encoding.md R82). -/
def OpcodeRow.spells (r : OpcodeRow) (w : CmdWord) : Bool := w &&& r.mask == r.matchBits

/-- The four rows of the opcode map (30_encoding.md R82, `opcode_table.json`). -/
def opcodeTable : List OpcodeRow :=
  [⟨"INIT", 0x000, 0x300⟩, ⟨"FEED", 0x100, 0x300⟩, ⟨"FINAL", 0x200, 0x300⟩, ⟨"RESERVED", 0x300, 0x300⟩]

/-- The row a command belongs to. -/
def Instr.mnemonic : Instr → String
  | .init => "INIT"
  | .feed _ => "FEED"
  | .final => "FINAL"
  | .reserved => "RESERVED"

/-- The value of a `<byte>` operand; a character is its ASCII code (30_encoding.md R89). -/
def ByteOperand.value : ByteOperand → Byte
  | .number n => BitVec.ofNat 8 n
  | .char c => BitVec.ofNat 8 c.toNat

/-- The command words a line expands to, in order (30_encoding.md R89, R90). -/
def AsmLine.words : AsmLine → List CmdWord
  | .init => [encode .init]
  | .feed b => [encode (.feed b.value)]
  | .final => [encode .final]
  | .feeds text => text.map fun c => encode (.feed (BitVec.ofNat 8 c.toNat))
  | .feedx bytes => bytes.map fun n => encode (.feed (BitVec.ofNat 8 n))
  | .feedn count b => List.replicate count (encode (.feed b.value))
  | .cmd word => [BitVec.ofNat 10 word]

/-- The words of a line, none where a line is not legal. -/
def AsmLine.assemble (l : AsmLine) : Option (List CmdWord) := if l.wellFormed then some l.words else none

/-- A program is a straight list of lines: no label, no branch (30_encoding.md R90). -/
def assembleLines : List AsmLine → Option (List CmdWord)
  | [] => some []
  | l :: ls =>
    match l.assemble, assembleLines ls with
    | some ws, some rest => some (ws ++ rest)
    | _, _ => none

end Sys2Proof
end

