-- ==== Sys2Proof/Machine/Primitives.lean ====
section
/-! DEFINITION. The primitive operations on words and bytes (00_scope.md section 5.2). -/

namespace Sys2Proof.Machine

/-- Addition modulo 2^32; the carry out is dropped and recorded nowhere (00_scope.md R8). -/
def add32 (x y : Word) : Word := x + y

/-- Addition modulo 2^64 on the bit counter (00_scope.md R9). -/
def add64 (x y : BitCount) : BitCount := x + y

/-- Right rotation, the amount reduced modulo 32 (00_scope.md R11). -/
def rotr (x : Word) (n : Nat) : Word :=
  if n % 32 = 0 then x else (x >>> (n % 32)) ||| (x <<< (32 - n % 32))

/-- Logical right shift (00_scope.md R12). -/
def shr (x : Word) (n : Nat) : Word := x >>> n

/-- `be32(b0, b1, b2, b3) = b0 * 2^24 + b1 * 2^16 + b2 * 2^8 + b3`, `b0` the first in the byte stream (00_scope.md R13,
20_memory.md R51). -/
def be32 (b0 b1 b2 b3 : Byte) : Word :=
  BitVec.ofNat 32 (b0.toNat * 2 ^ 24 + b1.toNat * 2 ^ 16 + b2.toNat * 2 ^ 8 + b3.toNat)

/-- Byte `k` of a word, byte 0 the most significant: `w[31 - 8k : 24 - 8k]` (00_scope.md R13, 20_memory.md R55). -/
def byteOfWord (w : Word) (k : Nat) : Byte := w.extractLsb' (24 - 8 * k) 8

/-- Byte `k` of a 64-bit value, byte 0 the most significant: `v[63 - 8k : 56 - 8k]` (00_scope.md R13, 20_memory.md R54). -/
def byteOfCount (v : BitCount) (k : Nat) : Byte := v.extractLsb' (56 - 8 * k) 8

/-- The four bytes of a word in big-endian order (00_scope.md R13). -/
def bytes32 (w : Word) : List Byte := (List.range 4).map (byteOfWord w)

/-- The eight bytes of a 64-bit value in big-endian order (00_scope.md R13). -/
def bytes64 (v : BitCount) : List Byte := (List.range 8).map (byteOfCount v)

end Sys2Proof.Machine
end

