-- ==== Sys2Proof/Config.lean ====
section
/-! DEFINITION. The constants of the block: the tables `K` and `IV` and the sizes SHA-256 fixes. Nothing is left open to a
free value: the spec's open parameters (`T_INIT`, `T_FEED`, `T_DRAIN`, `T_FINAL`, the rounds per clock) are times, and the
model has no time (00_scope.md R7, 70_reset_and_hazards.md R241). -/

namespace Sys2Proof.Config

/-- Bytes of one block and of the block buffer (00_scope.md R6). -/
abbrev blockBytes : Nat := 64

/-- The largest `fill` at which the marker and the length field still fit in one block, `64 - 9`
(00_scope.md R6, 43_engine_finalize.md R173). -/
abbrev lastOneBlockFill : Nat := 55

/-- The bits of one drained block (42_engine_feed.md R152). -/
def blockBits : BitCount := 512

/-- The padding marker (00_scope.md R6). -/
def marker : Byte := 0x80

/-- Rows 0 to 31 of the table of RoundConstants (10_state.md R24). -/
def roundConstantsLow : List Word :=
  [0x428a2f98, 0x71374491, 0xb5c0fbcf, 0xe9b5dba5, 0x3956c25b, 0x59f111f1, 0x923f82a4, 0xab1c5ed5] ++
  [0xd807aa98, 0x12835b01, 0x243185be, 0x550c7dc3, 0x72be5d74, 0x80deb1fe, 0x9bdc06a7, 0xc19bf174] ++
  [0xe49b69c1, 0xefbe4786, 0x0fc19dc6, 0x240ca1cc, 0x2de92c6f, 0x4a7484aa, 0x5cb0a9dc, 0x76f988da] ++
  [0x983e5152, 0xa831c66d, 0xb00327c8, 0xbf597fc7, 0xc6e00bf3, 0xd5a79147, 0x06ca6351, 0x14292967]

/-- Rows 32 to 63 of the table of RoundConstants (10_state.md R24). -/
def roundConstantsHigh : List Word :=
  [0x27b70a85, 0x2e1b2138, 0x4d2c6dfc, 0x53380d13, 0x650a7354, 0x766a0abb, 0x81c2c92e, 0x92722c85] ++
  [0xa2bfe8a1, 0xa81a664b, 0xc24b8b70, 0xc76c51a3, 0xd192e819, 0xd6990624, 0xf40e3585, 0x106aa070] ++
  [0x19a4c116, 0x1e376c08, 0x2748774c, 0x34b0bcb5, 0x391c0cb3, 0x4ed8aa4a, 0x5b9cca4f, 0x682e6ff3] ++
  [0x748f82ee, 0x78a5636f, 0x84c87814, 0x8cc70208, 0x90befffa, 0xa4506ceb, 0xbef9a3f7, 0xc67178f2]

/-- The RoundConstants `K[0..63]` (10_state.md R24). PRESUMED by the spec itself (93_implementation_defined.md G1), log 1. -/
def K : Vector Word 64 := ⟨(roundConstantsLow ++ roundConstantsHigh).toArray, by decide⟩

/-- The initial constants `IV[0..7]` (10_state.md R25). PRESUMED by the spec itself (93_implementation_defined.md G2), log 1. -/
def IV : HashState :=
  #v[0x6a09e667, 0xbb67ae85, 0x3c6ef372, 0xa54ff53a, 0x510e527f, 0x9b05688c, 0x1f83d9ab, 0x5be0cd19]

end Sys2Proof.Config
end

