-- ==== Sys2Proof/Machine/State.lean ====
section
/-! DEFINITION. The state of one block, its reset value, and the reasons a step could stop. -/

namespace Sys2Proof.Machine

/-- The life cycle of an engine (10_state.md R28). -/
inductive Phase where
  /-- The engine takes FEED and FINAL. Encoded 0. -/
  | active
  /-- FINAL has been executed; the digest stands. Encoded 1. -/
  | spent
  deriving DecidableEq, Repr

/-- The three responses (30_encoding.md R85); the code `0b11` is never produced (93_implementation_defined.md U11). -/
inductive Response where
  /-- The command was executed. -/
  | ok
  /-- FEED or FINAL in phase SPENT; nothing was changed. -/
  | errSpent
  /-- A reserved `op`; nothing was changed. -/
  | errIllegal
  deriving DecidableEq, Repr

/-- What the host can drive at the block's input ports at one instant (30_encoding.md R86, R87). -/
inductive HostEvent where
  /-- A command word presented on `cmd` with `cmd_valid = 1` and held until accepted (70_reset_and_hazards.md R238). -/
  | command (w : CmdWord)
  /-- `rst` asserted (70_reset_and_hazards.md R230). -/
  | reset
  deriving DecidableEq, Repr

/-- The bytes of the block buffer as (offset, byte) pairs in one canonical form, see `Memory.wf`. -/
abbrev Memory := List Host.Cell

/-- What an unlisted offset of the buffer reads as: reset and INIT put `0x00` in all 64 bytes (10_state.md R34). -/
def Memory.unlisted : Byte := 0x00

/-- The canonical form of a buffer: offsets strictly rising, all of them inside the 64-byte buffer (20_memory.md R50),
and no entry equal to what an unlisted offset reads as. -/
def Memory.wf (m : Memory) : Bool :=
  decide (m.Pairwise fun c d => c.1 < d.1) && m.all fun c => decide (c.1 < Config.blockBytes) && c.2 != Memory.unlisted

/-- The engine state of one instance, the five elements of 10_state.md R20 and nothing else. The scratch `W`, `a` .. `h`,
`t` has no value between commands and is no field (R32); it lives in `Scratch` inside one compression. The tables, the
command stream and the host's place in it are no fields either (R33): a command is a parameter of every function on it. -/
structure Engine where
  /-- `H[0..7]`, the HashState (10_state.md R21). -/
  H : HashState
  /-- `buf[0..63]`, the bytes of the AccumulationBuffer (10_state.md R26). -/
  buf : Memory
  /-- The fill-length counter, 0 .. 63 between commands (10_state.md R26). -/
  fill : Fin 64
  /-- The BitCounter (10_state.md R27). -/
  bitcount : BitCount
  /-- ACTIVE or SPENT, the only flag (10_state.md R28). -/
  phase : Phase
  deriving DecidableEq, Repr

/-- One instance and its ports (30_encoding.md R86): the engine, the response port, and what the input ports carry at
this instant. The command stream and the host's place in it are the host's (10_state.md R30, R33): no field holds them,
and a run over a stream takes it as a parameter, `runStream`. -/
structure State extends Engine where
  /-- `resp_valid` and `resp`: the response to the last command accepted since reset, if any (30_encoding.md R85, R86). -/
  resp : Option Response
  /-- What `rst`, `cmd_valid` and `cmd` carry now: at most one event, none while `rst = 0` and `cmd_valid = 0`
  (30_encoding.md R86, R87). It is the argument of R87's `step : State x Command -> State x Response` (log 4). -/
  port : Option HostEvent
  deriving DecidableEq, Repr

/-- The state after reset (10_state.md R34, 70_reset_and_hazards.md R230), with nothing presented by the host (log 4). -/
def State.reset : State where
  H := Config.IV
  buf := []
  fill := 0
  bitcount := 0
  phase := .active
  resp := none
  port := none

/-- No step of the block stops with a fault: "the core algorithm itself has no recoverable error states", and a misused
or reserved command is answered by a response in the next state (60_exceptions.md R200, R201, R203). So there is no
constructor. -/
inductive Fault where
  deriving DecidableEq, Repr

/-- Why the model gives no answer. -/
inductive Refusal where
  /-- Raised by an arm of `exec` for an instruction that has no meaning yet; no arm raises it now. Safe: the run stops. -/
  | notModelled (mnemonic : String)
  deriving DecidableEq, Repr

end Sys2Proof.Machine
end

