-- ==== Sys2Proof/Machine/Ops.lean ====
section
/-! DEFINITION. The shared operations: the block buffer's bytes, the answer to a command, the rejection of a command,
the constructed engine. -/

namespace Sys2Proof.Machine

/-! ### The block buffer -/

/-- The byte listed at an offset, or what an unlisted offset reads as. -/
def Memory.lookup : Memory → Nat → Byte
  | [], _ => Memory.unlisted
  | c :: rest, a => if c.1 = a then c.2 else Memory.lookup rest a

/-- `buf[j]` (20_memory.md R50). No offset outside the buffer can be expressed (R59). -/
def Memory.read (m : Memory) (j : Fin 64) : Byte := m.lookup j.val

/-- Puts a cell at its place in the rising order of offsets. -/
def Memory.insertCell (c : Host.Cell) : Memory → Memory
  | [] => [c]
  | d :: rest => if c.1 < d.1 then c :: d :: rest else d :: Memory.insertCell c rest

/-- `buf[j] <- b`, keeping the canonical form: what an unlisted offset reads as is not listed. -/
def Memory.write (m : Memory) (j : Fin 64) (b : Byte) : Memory :=
  let others := m.filter fun c => c.1 != j.val
  if b = Memory.unlisted then others else Memory.insertCell (j.val, b) others

/-- `MemRead(j, n)`: `n` bytes as one big-endian value, `buf[j]` most significant (20_memory.md R52). -/
def memRead (m : Memory) (j : Nat) : (n : Nat) → j + n ≤ 64 → BitVec (8 * n)
  | 0, _ => 0#0
  | n + 1, h => (memRead m j n (by omega)) ++ m.read ⟨j + n, by omega⟩

/-- The first `k` of the `n` byte writes of `MemWrite(j, n, v)`: `buf[j+k] <- v[8(n-k)-1 : 8(n-k-1)]` (20_memory.md R53). -/
def memWriteBytes (m : Memory) (j n : Nat) (v : BitVec (8 * n)) (h : j + n ≤ 64) : (k : Nat) → k ≤ n → Memory
  | 0, _ => m
  | k + 1, hk =>
    (memWriteBytes m j n v h k (by omega)).write ⟨j + k, by omega⟩ (v.extractLsb' (8 * (n - k - 1)) 8)

/-- `MemWrite(j, n, v)`: the most significant byte of `v` at the lowest offset (20_memory.md R53). -/
def memWrite (m : Memory) (j n : Nat) (v : BitVec (8 * n)) (h : j + n ≤ 64) : Memory :=
  memWriteBytes m j n v h n (Nat.le_refl n)

/-- The first `k` turns of `for j = lo .. 63: buf[j] <- 0x00`, the loop of FINAL's zero fill
(43_engine_finalize.md R172). -/
def zeroBytes (m : Memory) (lo : Nat) : Nat → Memory
  | 0 => m
  | k + 1 => if h : lo + k < 64 then (zeroBytes m lo k).write ⟨lo + k, h⟩ 0x00 else zeroBytes m lo k

/-- `for j = lo .. 63: buf[j] <- 0x00`, empty when `lo = 64`. -/
def zeroFill (m : Memory) (lo : Nat) : Memory := zeroBytes m lo (64 - lo)

/-- The buffer after `for j = 0 .. 63: buf[j] <- 0x00`: every byte reads as `0x00`, so nothing is listed
(42_engine_feed.md R150, 43_engine_finalize.md R173). -/
def Memory.cleared : Memory := []

/-- The whole buffer as a block, `M[j] = buf[j]` (40_compress_schedule.md R102). -/
def readBlock (m : Memory) : Block := Vector.ofFn fun j => m.read j

/-! ### Answers -/

/-- What a command answers: the engine it leaves and the response it gives (20_memory.md R61, 30_encoding.md R85). -/
structure Answer where
  engine : Engine
  resp : Response
  deriving DecidableEq, Repr

/-- The state after a command: the engine it left, its response on the port, the input ports as they were. -/
def State.answered (s : State) (a : Answer) : State := { s with toEngine := a.engine, resp := some a.resp }

/-- A command completes (30_encoding.md R85: every accepted command is answered by exactly one response). -/
def complete (s : State) (a : Answer) : Host.Outcome State Fault Refusal := .next (s.answered a)

/-- Response OK: the command was executed and left the engine `e` (30_encoding.md R85). -/
def accept (e : Engine) : Answer := { engine := e, resp := .ok }

/-- `raise Reject(code)`, the block's only exception: no state is written, no mode changes, nothing is saved, and the
command is answered by `code` (60_exceptions.md R203, R207). There is no return from it: the next command is executed by
the ordinary rules. -/
def reject (code : Response) (e : Engine) : Answer := { engine := e, resp := code }

/-- A newly constructed engine, what INIT and reset leave (42_engine_feed.md R150, 70_reset_and_hazards.md R230, R231). -/
def constructed : Engine where
  H := Config.IV
  buf := Memory.cleared
  fill := 0
  bitcount := 0
  phase := .active

/-- The reset transition, taken from any state (70_reset_and_hazards.md R230): the constructed engine, no response
pending. What the host presents after it is the host's. -/
def resetAction (s : State) : State := { s with toEngine := constructed, resp := none }

end Sys2Proof.Machine
end

