-- ==== Sys2Proof/Machine/Flags.lean ====
section
/-! DEFINITION. The one flag and the conditions that decide inside a command (10_state.md R28, 44_absent_families.md R190).
No addition sets a flag: there is no carry, overflow, zero or sign flag. -/

namespace Sys2Proof.Machine

/-- The encoding of `phase`: ACTIVE = 0, SPENT = 1 (10_state.md R28). -/
def Phase.bit : Phase → BitVec 1
  | .active => 0
  | .spent => 1

/-- The code of a response on `resp[1:0]` (30_encoding.md R85). -/
def Response.code : Response → BitVec 2
  | .ok => 0b00
  | .errSpent => 0b01
  | .errIllegal => 0b10

/-- The admission test of FEED and FINAL: rejected in phase SPENT (60_exceptions.md R202). -/
def isSpent (e : Engine) : Bool := e.phase = .spent

/-- The spill condition of FINAL, `fill > 55` on the fill before the marker (43_engine_finalize.md R173). -/
def spills (n : Fin 64) : Bool := n.val > Config.lastOneBlockFill

end Sys2Proof.Machine
end

