-- ==== Sys2Proof/Machine/Operands.lean ====
section
/-! DEFINITION. The operands and effective offsets of the commands (44_absent_families.md R191). FEED's byte is its own
operand, used as it stands (30_encoding.md R83); no command carries an address, and the only variable offset is `fill`. -/

namespace Sys2Proof.Machine

/-- The offset FEED stores its byte at (44_absent_families.md R191). -/
def feedOffset (e : Engine) : Fin 64 := e.fill

/-- The offset FINAL stores the marker at (44_absent_families.md R191). -/
def markerOffset (e : Engine) : Fin 64 := e.fill

/-- The fixed offset of the length field (44_absent_families.md R191, 20_memory.md R54). -/
abbrev lengthOffset : Nat := 56

/-- The unflushed tail in bits, `8 * fill`, at most 504 and so exact (43_engine_finalize.md R171). -/
def tailBits (e : Engine) : BitCount := BitVec.ofNat 64 (8 * e.fill.val)

end Sys2Proof.Machine
end

