-- ==== Sys2Proof/Machine/Schedule.lean ====
section
/-! DEFINITION. Compression Core, first part: the schedule word functions, loading and expansion of the message schedule
(40_compress_schedule.md). -/

namespace Sys2Proof.Machine

/-- σ0 (40_compress_schedule.md R100). -/
def sigma0 (x : Word) : Word := rotr x 7 ^^^ rotr x 18 ^^^ shr x 3

/-- σ1 (40_compress_schedule.md R101). -/
def sigma1 (x : Word) : Word := rotr x 17 ^^^ rotr x 19 ^^^ shr x 10

/-- The scratch of one invocation of the Compression Core, the array `W[0..63]` of the message schedule (10_state.md R23).
The round index `t` is the loop variable of the functions below (R31); the working variables are `WorkVars`. -/
abbrev Schedule := Vector Word 64

/-- The big-endian word at offset `4t` of a block (20_memory.md R51). -/
def blockWord (M : Block) (t : Nat) (h : t < 16) : Word :=
  be32 M[4 * t] M[4 * t + 1] M[4 * t + 2] M[4 * t + 3]

/-- SCHED_LOAD, its first `k` turns: `W[t] <- be32(M[4t] .. M[4t+3])` for `t = 0 .. k-1` (40_compress_schedule.md R102). -/
def schedLoad (W : Schedule) (M : Block) : Nat → Schedule
  | 0 => W
  | t + 1 => if h : t < 16 then (schedLoad W M t).set t (blockWord M t h) else schedLoad W M t

/-- SCHED_EXPAND, its first `k` turns: `W[t] <- W[t-16] + σ0(W[t-15]) + W[t-7] + σ1(W[t-2])` for `t = 16 .. 15+k`
(40_compress_schedule.md R103). -/
def schedExpand (W : Schedule) : Nat → Schedule
  | 0 => W
  | k + 1 =>
    let V := schedExpand W k
    if h : k < 48 then
      V.set (16 + k) (add32 (add32 (add32 V[k] (sigma0 V[k + 1])) V[k + 9]) (sigma1 V[k + 14]))
    else V

/-- SCHED_LOAD, then SCHED_EXPAND, over whatever an earlier invocation left in `W`. -/
def scheduleOver (W : Schedule) (M : Block) : Schedule := schedExpand (schedLoad W M 16) 48

/-- `schedule(M)`, the array `W[0..63]` the block gives (40_compress_schedule.md R104). What `W` held before does not
matter; it is taken as zero here (log 3). -/
def schedule (M : Block) : Schedule := scheduleOver (Vector.replicate 64 0) M

end Sys2Proof.Machine
end

