-- ==== Sys2Proof/Machine/Round.lean ====
section
/-! DEFINITION. Compression Core, second part: the round word functions, the round, the state mixing, `compress`
(41_compress_round.md). -/

namespace Sys2Proof.Machine

/-- Σ0 (41_compress_round.md R120). -/
def bigSigma0 (x : Word) : Word := rotr x 2 ^^^ rotr x 13 ^^^ rotr x 22

/-- Σ1 (41_compress_round.md R121). -/
def bigSigma1 (x : Word) : Word := rotr x 6 ^^^ rotr x 11 ^^^ rotr x 25

/-- Ch (41_compress_round.md R122). -/
def ch (e f g : Word) : Word := (e &&& f) ^^^ (~~~e &&& g)

/-- Maj (41_compress_round.md R123). -/
def maj (a b c : Word) : Word := (a &&& b) ^^^ (a &&& c) ^^^ (b &&& c)

/-- The eight working variables (10_state.md R22). -/
structure WorkVars where
  a : Word
  b : Word
  c : Word
  d : Word
  e : Word
  f : Word
  g : Word
  h : Word
  deriving DecidableEq, Repr

/-- WV_INIT: `a` .. `h` from the input state (41_compress_round.md R124). -/
def wvInit (S : HashState) : WorkVars :=
  { a := S[0], b := S[1], c := S[2], d := S[3], e := S[4], f := S[5], g := S[6], h := S[7] }

/-- `T1 = h + Σ1(e) + Ch(e,f,g) + K[t] + W[t]` (41_compress_round.md R125). -/
def temp1 (v : WorkVars) (k w : Word) : Word :=
  add32 (add32 (add32 (add32 v.h (bigSigma1 v.e)) (ch v.e v.f v.g)) k) w

/-- `T2 = Σ0(a) + Maj(a,b,c)` (41_compress_round.md R126). -/
def temp2 (v : WorkVars) : Word := add32 (bigSigma0 v.a) (maj v.a v.b v.c)

/-- ROUND(t) with `k = K[t]`, `w = W[t]`; every right side reads the values from before the round (41_compress_round.md
R127). -/
def hashRound (v : WorkVars) (k w : Word) : WorkVars :=
  { a := add32 (temp1 v k w) (temp2 v), b := v.a, c := v.b, d := v.c,
    e := add32 v.d (temp1 v k w), f := v.e, g := v.f, h := v.g }

/-- ROUND(0) .. ROUND(k-1), in that order (41_compress_round.md R128). -/
def hashRounds (W : Schedule) (v : WorkVars) : Nat → WorkVars
  | 0 => v
  | t + 1 => if h : t < 64 then hashRound (hashRounds W v t) Config.K[t] W[t] else hashRounds W v t

/-- MIX: the elementwise sum of the input state and the working variables (41_compress_round.md R129). -/
def mix (S : HashState) (v : WorkVars) : HashState :=
  #v[add32 S[0] v.a, add32 S[1] v.b, add32 S[2] v.c, add32 S[3] v.d,
     add32 S[4] v.e, add32 S[5] v.f, add32 S[6] v.g, add32 S[7] v.h]

/-- The scratch registers of the Compression Core (10_state.md R32): the schedule and the working variables as an
invocation leaves them. -/
structure Scratch where
  W : Schedule
  v : WorkVars
  deriving DecidableEq, Repr

/-- COMPRESS on scratch registers that hold whatever an earlier invocation left: the scratch it leaves and the state it
returns (41_compress_round.md R131). -/
def compressOver (sc : Scratch) (S : HashState) (M : Block) : Scratch × HashState :=
  let W := scheduleOver sc.W M
  let v := hashRounds W (wvInit S) 64
  ({ W := W, v := v }, mix S v)

/-- `compress(S, M)`, the pure function of the Compression Core (41_compress_round.md R130, R131). -/
def compress (S : HashState) (M : Block) : HashState := mix S (hashRounds (schedule M) (wvInit S) 64)

end Sys2Proof.Machine
end

