-- ==== Sys2Proof/Machine/Feed.lean ====
section
/-! DEFINITION. FEED and the drain of a full buffer (42_engine_feed.md). -/

namespace Sys2Proof.Machine

/-- `H <- compress(H, buf[0..63])`: the result replaces `H` (42_engine_feed.md R152, 43_engine_finalize.md R173, R175). -/
def compressBuffer (e : Engine) : Engine := { e with H := compress e.H (readBlock e.buf) }

/-- DRAIN (42_engine_feed.md R152). The buffer's bytes stay. -/
def drain (e : Engine) : Engine :=
  { compressBuffer e with bitcount := add64 e.bitcount Config.blockBits, fill := 0 }

/-- `MemWrite(fill, 1, data)` (42_engine_feed.md R151). -/
def storeByte (data : Byte) (e : Engine) : Engine :=
  { e with buf := memWrite e.buf (feedOffset e).val 1 data (by omega) }

/-- `fill <- fill + 1`, and DRAIN when that is 64. The count is 64 only here, inside the command (10_state.md R26). -/
def advance (e : Engine) : Engine :=
  if h : e.fill.val + 1 = 64 then drain e else { e with fill := ⟨e.fill.val + 1, by omega⟩ }

/-- The effect of an accepted FEED: the byte is stored and counted (42_engine_feed.md R151). -/
def absorb (data : Byte) (e : Engine) : Engine := advance (storeByte data e)

/-- FEED (42_engine_feed.md R151). -/
def execFeed (data : Byte) (s : State) : Host.Outcome State Fault Refusal :=
  complete s (if isSpent s.toEngine then reject .errSpent s.toEngine else accept (absorb data s.toEngine))

end Sys2Proof.Machine
end

