-- ==== Sys2Proof/Machine/Finalize.lean ====
section
/-! DEFINITION. FINAL as its six steps, and the padding sequence as a state machine (43_engine_finalize.md). -/

namespace Sys2Proof.Machine

/-- Step 1: `bitcount <- add64(bitcount, 8 * fill)` (43_engine_finalize.md R171). -/
def finalCount (e : Engine) : Engine := { e with bitcount := add64 e.bitcount (tailBits e) }

/-- Step 2: the marker at `fill`, zeros from `fill + 1` to 63 (43_engine_finalize.md R172). -/
def finalMark (e : Engine) : Engine :=
  { e with
    buf := zeroFill (memWrite e.buf (markerOffset e).val 1 Config.marker (by omega)) ((markerOffset e).val + 1) }

/-- The action of step 3: compress the buffer, then clear all of it (43_engine_finalize.md R173). -/
def finalSpillBlock (e : Engine) : Engine := { compressBuffer e with buf := Memory.cleared }

/-- Step 3, taken only in the two-block case (43_engine_finalize.md R173). FINAL never writes `fill`, so it still holds the
fill at entry. -/
def finalSpill (e : Engine) : Engine := if spills e.fill then finalSpillBlock e else e

/-- Step 4: `MemWrite(56, 8, bitcount)` (43_engine_finalize.md R174). -/
def finalLength (e : Engine) : Engine := { e with buf := memWrite e.buf lengthOffset 8 e.bitcount (by decide) }

/-- Step 5: the last compression (43_engine_finalize.md R175). -/
def finalLast (e : Engine) : Engine := compressBuffer e

/-- Step 6: `phase <- SPENT`; the digest is a view of `H` from here on (43_engine_finalize.md R176). -/
def finalDone (e : Engine) : Engine := { e with phase := .spent }

/-- The effect of an accepted FINAL: its six steps in order (43_engine_finalize.md R170). -/
def finalize (e : Engine) : Engine := finalDone (finalLast (finalLength (finalSpill (finalMark (finalCount e)))))

/-- FINAL, one atomic transition (43_engine_finalize.md R170). -/
def execFinal (s : State) : Host.Outcome State Fault Refusal :=
  complete s (if isSpent s.toEngine then reject .errSpent s.toEngine else accept (finalize s.toEngine))

/-! ### The padding sequence as a state machine -/

/-- The states of the padding FSM (43_engine_finalize.md R177). -/
inductive PadPoint where
  | pCount
  | pMark
  | pSpill
  | pLen
  | pLast
  | pDone
  /-- The machine has ended: the engine is in phase SPENT. -/
  | ended
  deriving DecidableEq, Repr

/-- The padding FSM inside one FINAL: where it stands, the fill `n` latched at entry, and the engine. -/
structure PadMachine where
  point : PadPoint
  n : Fin 64
  engine : Engine
  deriving DecidableEq, Repr

/-- FINAL accepted: `n <- fill`, next P_COUNT (43_engine_finalize.md R177). -/
def padStart (e : Engine) : PadMachine := { point := .pCount, n := e.fill, engine := e }

/-- One transition of the padding FSM (43_engine_finalize.md R177). The response OK given with the last one is the
command's answer, not the engine's. -/
def padStep (p : PadMachine) : PadMachine :=
  match p.point with
  | .pCount => { p with point := .pMark, engine := finalCount p.engine }
  | .pMark => { p with point := if spills p.n then .pSpill else .pLen, engine := finalMark p.engine }
  | .pSpill => { p with point := .pLen, engine := finalSpillBlock p.engine }
  | .pLen => { p with point := .pLast, engine := finalLength p.engine }
  | .pLast => { p with point := .pDone, engine := finalLast p.engine }
  | .pDone => { p with point := .ended, engine := finalDone p.engine }
  | .ended => p

/-- `k` transitions of the padding FSM. -/
def padRun : Nat → PadMachine → PadMachine
  | 0, p => p
  | k + 1, p => padRun k (padStep p)

/-- The compressions FINAL makes with a given fill (43_engine_finalize.md R179). -/
def finalCompressions (n : Fin 64) : Nat := if spills n then 2 else 1

end Sys2Proof.Machine
end

