-- ==== Sys2Proof/Machine/Init.lean ====
section
/-! DEFINITION. The commands that touch no block: INIT and the reserved word. -/

namespace Sys2Proof.Machine

/-- INIT: the constructed engine, in every phase and every state (42_engine_feed.md R150). -/
def execInit (s : State) : Host.Outcome State Fault Refusal := complete s (accept constructed)

/-- The reserved word: rejected with ERR_ILLEGAL in any phase, no state change (30_encoding.md R84, 60_exceptions.md R204). -/
def execReserved (s : State) : Host.Outcome State Fault Refusal :=
  complete s (reject .errIllegal s.toEngine)

end Sys2Proof.Machine
end

