-- ==== Sys2Proof/Machine/Dispatch.lean ====
section
/-! DEFINITION. exec: one arm per command. -/

namespace Sys2Proof.Machine

/-- The meaning of each command (30_encoding.md R80, R88). -/
def exec (i : Instr) (s : State) : Host.Outcome State Fault Refusal :=
  match i with
  | .init => Sys2Proof.Machine.execInit s
  | .feed data => Sys2Proof.Machine.execFeed data s
  | .final => Sys2Proof.Machine.execFinal s
  | .reserved => Sys2Proof.Machine.execReserved s

end Sys2Proof.Machine
end

