-- ==== Sys2Proof/Machine/Fetch.lean ====
section
/-! DEFINITION. Taking the event at the input ports, and the transition the event causes. -/

namespace Sys2Proof.Machine

/-- The event at the input ports, with the state once it has been taken; none when the host presents nothing. A command
is presented until it is accepted (30_encoding.md R87), and then no longer. -/
def takePort (s : State) : Option (HostEvent × State) :=
  match s.port with
  | none => none
  | some event => some (event, { s with port := none })

/-- The transition one host event causes, the event being a parameter (10_state.md R33): reset from any state
(70_reset_and_hazards.md R230), or one accepted word, decoded before anything else and executed to completion
(30_encoding.md R87, R88). -/
def transition (event : HostEvent) (s : State) : Host.Outcome State Fault Refusal :=
  match event with
  | .reset => .next (resetAction s)
  | .command w => exec (decodeWord w) s

/-- `s` with the host driving an event at the input ports. -/
def drive (event : HostEvent) (s : State) : State := { s with port := some event }

/-- `s` with a command word presented at the input ports. -/
def present (w : CmdWord) (s : State) : State := drive (.command w) s

/-- `s` with the first `nbits` bits of `w` presented as a command word; a number with more than ten bits cannot stand on
the port and presents nothing. -/
def presentNat (s : State) (nbits w : Nat) : State :=
  match commandWord (w % 2 ^ nbits) with
  | .ok c => present c s
  | .error _ => s

end Sys2Proof.Machine
end

