-- ==== Sys2Proof/Machine/Step.lean ====
section
/-! DEFINITION. One step of the block: the event at its input ports. -/

namespace Sys2Proof.Machine

/-- One step: nothing when the host presents nothing (60_exceptions.md R212: between commands the block is idle and keeps
its state; the idle step itself is log 4, the response standing through it log 6), or the transition the event
at its ports causes. -/
def step (s : State) : Host.Outcome State Fault Refusal :=
  match takePort s with
  | none => .next s
  | some (event, s') => transition event s'

/-- The host's view: `s` with an instruction presented at the ports, so that `step` runs exactly it. -/
def State.withFetchWord (s : State) (nbits w : Nat) : State := presentNat s nbits w

end Sys2Proof.Machine
end

