-- ==== Sys2Proof/Machine/Assembler.lean ====
section
/-! DEFINITION. The text of the assembler notation: one command per line, `;` opens a comment (30_encoding.md R89, R90).
The abstract lines and their words are `AsmLine` and `AsmLine.words`; here a line of characters is read as one. How a
numeral may be spelled beyond the spec's examples, where blanks may or must stand, and where FEEDS text ends, is DESIGN
CHOICE, log 8. -/

namespace Sys2Proof.Machine

/-- A decimal digit's value. -/
def decDigit (c : Char) : Option Nat := if '0' ≤ c && c ≤ '9' then some (c.toNat - 48) else none

/-- A hexadecimal digit's value, of either case. -/
def hexDigit (c : Char) : Option Nat :=
  if '0' ≤ c && c ≤ '9' then some (c.toNat - 48)
  else if 'a' ≤ c && c ≤ 'f' then some (c.toNat - 87)
  else if 'A' ≤ c && c ≤ 'F' then some (c.toNat - 55)
  else none

/-- The line without its leading blanks. -/
def skipBlanks (cs : List Char) : List Char := cs.dropWhile (· = ' ')

/-- Nothing but blanks and a comment is left. -/
def atLineEnd (cs : List Char) : Bool :=
  match skipBlanks cs with
  | [] => true
  | c :: _ => c = ';'

/-- The longest run of digits, as a number on top of `acc`, and what follows it. -/
def readDigits (digit : Char → Option Nat) (base acc : Nat) : List Char → Nat × List Char
  | [] => (acc, [])
  | c :: cs =>
    match digit c with
    | some d => readDigits digit base (base * acc + d) cs
    | none => (acc, c :: cs)

/-- A hexadecimal (`0x` and digits) or decimal numeral. -/
def readNumeral (cs : List Char) : Option (Nat × List Char) :=
  match cs with
  | '0' :: 'x' :: c :: rest => if (hexDigit c).isSome then some (readDigits hexDigit 16 0 (c :: rest)) else none
  | c :: rest => if (decDigit c).isSome then some (readDigits decDigit 10 0 (c :: rest)) else none
  | [] => none

/-- A `<byte>`: one character in single quotes, or a numeral (30_encoding.md R89). -/
def readByteOperand (cs : List Char) : Option (ByteOperand × List Char) :=
  match cs with
  | '\'' :: c :: '\'' :: rest => some (.char c, rest)
  | _ =>
    match readNumeral cs with
    | some (n, rest) => some (.number n, rest)
    | none => none

/-- The characters up to the closing double quote, and what follows it. DESIGN CHOICE, log 8: R90 gives no escape, so the
text ends at the first double quote and none can stand in it (FEED and FEEDX spell that byte). -/
def readText : List Char → Option (List Char × List Char)
  | [] => none
  | c :: cs =>
    if c = '"' then some ([], cs)
    else
      match readText cs with
      | some (text, rest) => some (c :: text, rest)
      | none => none

/-- The bytes of FEEDX, two hexadecimal digits each, up to the end of the line; `fuel` bounds their number. DESIGN CHOICE,
log 8: R90 shows a blank between two bytes and does not say that one must stand there; here any number of blanks may,
none included, so `FEEDX 0001` is the two bytes `00` and `01`. -/
def readHexBytes : Nat → List Char → Option (List Nat)
  | 0, _ => none
  | fuel + 1, cs =>
    if atLineEnd cs then some []
    else
      match skipBlanks cs with
      | h :: l :: rest =>
        match hexDigit h, hexDigit l, readHexBytes fuel rest with
        | some a, some b, some ns => some ((16 * a + b) :: ns)
        | _, _, _ => none
      | _ => none

/-- A line that ends where its operands do. -/
def endLine (l : AsmLine) (rest : List Char) : Option AsmLine := if atLineEnd rest then some l else none

/-- The operands of a mnemonic, read from what follows it. DESIGN CHOICE, log 8: blanks may stand on either side of
FEEDN's comma and none needs to, so `FEEDN 2,7` is `FEEDN 2, 7`. -/
def readOperands (mnemonic : List Char) (cs : List Char) : Option AsmLine :=
  if mnemonic = ['I', 'N', 'I', 'T'] then endLine .init cs
  else if mnemonic = ['F', 'I', 'N', 'A', 'L'] then endLine .final cs
  else if mnemonic = ['F', 'E', 'E', 'D'] then
    match readByteOperand cs with
    | some (b, rest) => endLine (.feed b) rest
    | none => none
  else if mnemonic = ['F', 'E', 'E', 'D', 'S'] then
    match cs with
    | '"' :: rest =>
      match readText rest with
      | some (text, rest') => endLine (.feeds text) rest'
      | none => none
    | _ => none
  else if mnemonic = ['F', 'E', 'E', 'D', 'X'] then
    match readHexBytes (cs.length + 1) cs with
    | some ns => some (.feedx ns)
    | none => none
  else if mnemonic = ['F', 'E', 'E', 'D', 'N'] then
    match readNumeral cs with
    | some (n, rest) =>
      match skipBlanks rest with
      | ',' :: rest' =>
        match readByteOperand (skipBlanks rest') with
        | some (b, rest'') => endLine (.feedn n b) rest''
        | none => none
      | _ => none
    | none => none
  else if mnemonic = ['.', 'c', 'm', 'd'] then
    match readNumeral cs with
    | some (n, rest) => endLine (.cmd n) rest
    | none => none
  else none

/-- The words of one line of text: none where it is no legal line, no word for a blank or comment line. -/
def assembleLine (cs : List Char) : Option (List CmdWord) :=
  if atLineEnd cs then some []
  else
    let line := skipBlanks cs
    let name := line.takeWhile fun c => c != ' ' && c != ';'
    match readOperands name (skipBlanks (line.drop name.length)) with
    | some l => l.assemble
    | none => none

/-- The words of a text, line by line (30_encoding.md R89). -/
def assembleText : List (List Char) → Option (List CmdWord)
  | [] => some []
  | l :: ls =>
    match assembleLine l, assembleText ls with
    | some ws, some rest => some (ws ++ rest)
    | _, _ => none

end Sys2Proof.Machine
end

