-- ==== Sys2Proof/Machine/Stream.lean ====
section
/-! DEFINITION. A run over the host's stream, the stream being a parameter of the model and no state (10_state.md R33). -/

namespace Sys2Proof.Machine

/-- The run over a stream: the host drives its events one after the other, and the block takes each in one step
(30_encoding.md R87: the accepted commands, in the order accepted, are the command stream). -/
def runStream : List HostEvent → State → Host.Outcome State Fault Refusal
  | [], s => .next s
  | event :: later, s =>
    match step (drive event s) with
    | .next t => runStream later t
    | .fault r => .fault r
    | .refused r => .refused r

end Sys2Proof.Machine
end

