-- ==== Sys2Proof/Machine/Ports.lean ====
section
/-! DEFINITION. What the host sees at the output ports, and the port-level view of the Compression Core
(30_encoding.md R86, 20_memory.md R57, 41_compress_round.md R132). -/

namespace Sys2Proof.Machine

/-- The eight words serialised big-endian, `H[0]` first: byte `4i + k` is `H[i][31-8k : 24-8k]` (20_memory.md R55,
43_engine_finalize.md R176). -/
def serialize (H : HashState) : Vector Byte 32 :=
  Vector.ofFn fun n => byteOfWord (H[n.val / 4]'(by omega)) (n.val % 4)

/-- `digest_valid`, which equals `phase` (10_state.md R28, 43_engine_finalize.md R181). -/
def Engine.digestValid (e : Engine) : Bool := isSpent e

/-- The digest as a partial observation: the 32 bytes in phase SPENT, absent (not zero) in phase ACTIVE
(10_state.md R29, 43_engine_finalize.md R181). -/
def Engine.digest (e : Engine) : Option (Vector Byte 32) := if isSpent e then some (serialize e.H) else none

/-- Word `i` of a 256-bit port at its place, bits `[255-32i : 224-32i]` (20_memory.md R57). -/
def placeWord (w : Word) (i : Nat) : BitVec 256 := w.setWidth 256 <<< (224 - 32 * i)

/-- Eight words as a 256-bit port (20_memory.md R57). -/
def packState (H : HashState) : BitVec 256 :=
  placeWord H[0] 0 ||| placeWord H[1] 1 ||| placeWord H[2] 2 ||| placeWord H[3] 3 |||
  placeWord H[4] 4 ||| placeWord H[5] 5 ||| placeWord H[6] 6 ||| placeWord H[7] 7

/-- The words of a 256-bit port (20_memory.md R57). -/
def unpackState (v : BitVec 256) : HashState := Vector.ofFn fun i => v.extractLsb' (224 - 32 * i.val) 32

/-- The bytes of a 512-bit port: byte `j` in bits `[511-8j : 504-8j]` (20_memory.md R57). -/
def unpackBlock (v : BitVec 512) : Block := Vector.ofFn fun j => v.extractLsb' (504 - 8 * j.val) 8

/-- The port `digest[255:0]` while `digest_valid = 1`; no value is given for it while `digest_valid = 0`
(43_engine_finalize.md R181, 93_implementation_defined.md U4). -/
def Engine.digestPort (e : Engine) : Option (BitVec 256) := if isSpent e then some (packState e.H) else none

/-- `resp_valid`: a response is on `resp` (30_encoding.md R86). -/
def State.respValid (s : State) : Bool := s.resp.isSome

/-- `resp[1:0]` while `resp_valid = 1` (30_encoding.md R85). -/
def State.respPort (s : State) : Option (BitVec 2) := s.resp.map Response.code

/-- `cmd_ready`: between commands no command is in progress, so the block can accept one (30_encoding.md R87). A state of
the model is always between two commands (20_memory.md R61). -/
def State.cmdReady (_ : State) : Bool := true

/-- The Compression Core as a sub-block: `state_out = compress(state_in, block)` (41_compress_round.md R132). -/
def compressPort (stateIn : BitVec 256) (block : BitVec 512) : BitVec 256 :=
  packState (compress (unpackState stateIn) (unpackBlock block))

end Sys2Proof.Machine
end

