-- ==== Sys2Proof/Safety.lean ====
section
/-! DEFINITION. The terms claims use: the padded message and its hash as the spec's whole-message reference, which state
belongs to which message, the supported domain, and what of a state can still matter. -/

namespace Sys2Proof.Safety

open Sys2Proof.Machine

/-- Block `k` of a byte sequence, its bytes `64k .. 64k+63` (20_memory.md R59). -/
def messageBlock (m : List Byte) (k : Nat) : Block := Vector.ofFn fun j => m.getD (64 * k + j.val) 0x00

/-- `S_k`: `S_0 = IV`, `S_{k+1} = compress(S_k, m[64k .. 64k+63])` (10_state.md R35). -/
def stateAfter (m : List Byte) : Nat → HashState
  | 0 => Config.IV
  | k + 1 => compress (stateAfter m k) (messageBlock m k)

/-- The zero bytes of the padding: the least number that completes a block (43_engine_finalize.md R184). -/
def padZeros (len : Nat) : Nat := if len % 64 ≤ 55 then 55 - len % 64 else 119 - len % 64

/-- The length field of a message, its length in bits modulo 2^64 (43_engine_finalize.md R184). -/
def lengthInBits (m : List Byte) : BitCount := BitVec.ofNat 64 (8 * m.length)

/-- `pad(m) = m ++ 0x80 ++ zeros ++ bytes64((8 * L) mod 2^64)` (43_engine_finalize.md R184). -/
def pad (m : List Byte) : List Byte :=
  m ++ [Config.marker] ++ List.replicate (padZeros m.length) 0x00 ++ bytes64 (lengthInBits m)

/-- The number of blocks of the padded message (43_engine_finalize.md R184). -/
def padBlocks (m : List Byte) : Nat := (pad m).length / 64

/-- The state after all blocks of the padded message (43_engine_finalize.md R184). -/
def paddedHash (m : List Byte) : HashState := stateAfter (pad m) (padBlocks m)

/-- The whole-message reference digest; the SHA-256 digest where `Supported m` (43_engine_finalize.md R184). -/
def messageDigest (m : List Byte) : Vector Byte 32 := serialize (paddedHash m)

/-- The supported domain: a message shorter than 2^64 bits (70_reset_and_hazards.md R239, 93_implementation_defined.md U2). -/
def Supported (m : List Byte) : Prop := m.length < 2 ^ 61

/-- 10_state.md R35 for phase ACTIVE: the engine holds the state of the message `m` fed so far. -/
structure Absorbing (m : List Byte) (s : State) : Prop where
  phase : s.phase = .active
  fill : s.fill.val = m.length % 64
  buf : ∀ j : Fin 64, j.val < s.fill.val → s.buf.read j = m.getD (64 * (m.length / 64) + j.val) 0x00
  bitcount : s.bitcount = BitVec.ofNat 64 (512 * (m.length / 64))
  H : s.H = stateAfter m (m.length / 64)

/-- 10_state.md R35 for phase SPENT: the engine holds the digest of the message `m`, complete at FINAL. -/
structure Finished (m : List Byte) (s : State) : Prop where
  phase : s.phase = .spent
  fill : s.fill.val = m.length % 64
  buf : ∀ j : Fin 64, s.buf.read j = (messageBlock (pad m) (padBlocks m - 1))[j]
  bitcount : s.bitcount = lengthInBits m
  H : s.H = paddedHash m

/-- The invariant between commands: the buffer is in canonical form and the engine holds the state of some message
(10_state.md R35). -/
def Inv (s : State) : Prop := s.buf.wf = true ∧ ∃ m, Absorbing m s ∨ Finished m s

/-- Two states that agree in everything a later answer or digest can depend on (20_memory.md R69, 43_engine_finalize.md
R180): in phase ACTIVE the buffer below `fill` only, in phase SPENT neither buffer nor `fill` nor `bitcount`. -/
structure LiveEq (s u : State) : Prop where
  H : s.H = u.H
  phase : s.phase = u.phase
  resp : s.resp = u.resp
  port : s.port = u.port
  fill : s.phase = .active → s.fill = u.fill
  bitcount : s.phase = .active → s.bitcount = u.bitcount
  buf : s.phase = .active → ∀ j : Fin 64, j.val < s.fill.val → s.buf.read j = u.buf.read j

/-- The engine state of 10_state.md R20 is the same in both; the ports may differ. -/
def SameEngine (s u : State) : Prop := s.toEngine = u.toEngine

/-- A step that rejected no command (60_exceptions.md R203: the block keeps no record, so a claim that needs "no command
was ever rejected" reads the responses). -/
def NotRejected (t : State) : Prop := t.resp = none ∨ t.resp = some .ok

/-- The command stream that hashes a message: INIT, one FEED per byte in order, FINAL (30_encoding.md R80, 42_engine_feed.md
R153). -/
def hashStream (m : List Byte) : List HostEvent :=
  .command (encode .init) :: (m.map fun b => .command (encode (.feed b))) ++ [.command (encode .final)]

end Sys2Proof.Safety
end

