-- ==== Sys2Proof/Certificates/Slice0/Obligations.lean ====
section
/-! DEFINITION. The statements for the provers. -/

open Sys2Proof Sys2Proof.Machine Sys2Proof.Safety

/-! ### Reset and INIT -/

/-- 10_state.md R34: every field of the state after reset. That nothing is presented by the host then is the model's
choice (log 4) and not claimed. -/
def Obligations.ResetLeavesTheConstructedState : Prop :=
  State.reset.H = Config.IV ∧ State.reset.fill = 0 ∧ (∀ j : Fin 64, State.reset.buf.read j = 0x00) ∧
  State.reset.bitcount = 0 ∧ State.reset.phase = .active ∧ State.reset.digestValid = false ∧
  State.reset.resp = none ∧ State.reset.respValid = false ∧ State.reset.cmdReady = true

/-- 70_reset_and_hazards.md R230: asserting `rst` in any state gives the reset state at once (that the state holds what
the input ports carry, and that they carry nothing after reset, is the model's choice, log 4). -/
def Obligations.ResetPinTakesAnyStateToReset : Prop :=
  ∀ s : State, step (drive .reset s) = .next State.reset

/-- 42_engine_feed.md R150: INIT, spelled by any word of its row, in any state. -/
def Obligations.InitAnswersTheConstructedState : Prop :=
  ∀ (s : State) (w : CmdWord), opField w = 0b00 → ∃ t, exec .init s = .next t ∧
    step (present w s) = .next { t with port := none } ∧
    SameEngine t State.reset ∧ t.H = Config.IV ∧ (∀ j : Fin 64, t.buf.read j = 0x00) ∧ t.fill = 0 ∧ t.bitcount = 0 ∧ t.phase = .active ∧
    t.digestValid = false ∧ t.resp = some .ok ∧ t.port = s.port

/-- 70_reset_and_hazards.md R231, 20_memory.md R62: INIT and reset leave the same engine state from any two states, and a
second INIT changes nothing. -/
def Obligations.InitAgreesWithResetAndIsIdempotent : Prop :=
  ∀ (s u : State) (w : CmdWord), opField w = 0b00 →
    ∃ t v, step (present w s) = .next t ∧ step (drive .reset u) = .next v ∧ SameEngine t v ∧ exec .init t = .next t

/-! ### FEED -/

/-- 42_engine_feed.md R151, R152 and the FEED half of 60_exceptions.md R202: in phase SPENT the byte is refused and
nothing changes; in phase ACTIVE it is stored at `fill` and nowhere else; below 63 only `fill` counts on; at 63 the whole
buffer, the new byte included, is compressed onto `H`, 512 bits are counted and `fill` is 0 again. -/
def Obligations.FeedStoresAndDrains : Prop :=
  ∀ (d : Byte) (s : State),
    step (present (formatC 0b01 d) s) = exec (.feed d) { s with port := none } ∧
    (s.phase = .spent → exec (.feed d) s = .next { s with resp := some .errSpent }) ∧
    (s.phase = .active → ∃ t, exec (.feed d) s = .next t ∧
      t.phase = .active ∧ t.resp = some .ok ∧ t.port = s.port ∧
      t.buf.read s.fill = d ∧ (∀ j : Fin 64, j ≠ s.fill → t.buf.read j = s.buf.read j) ∧
      (s.fill.val < 63 → t.fill.val = s.fill.val + 1 ∧ t.H = s.H ∧ t.bitcount = s.bitcount) ∧
      (s.fill.val = 63 → t.fill = 0 ∧ t.bitcount = s.bitcount + 512 ∧
        ∀ M : Block, (∀ j : Fin 64, M[j] = if j = s.fill then d else s.buf.read j) → t.H = compress s.H M))

/-- 10_state.md R35, 42_engine_feed.md R155: one FEED extends the message the engine holds by one byte. -/
def Obligations.FeedExtendsTheMessage : Prop :=
  ∀ (m : List Byte) (d : Byte) (s : State), Absorbing m s →
    ∃ t, exec (.feed d) s = .next t ∧ Absorbing (m ++ [d]) t ∧ NotRejected t

/-! ### FINAL -/

/-- 43_engine_finalize.md R170 to R176 and the FINAL half of 60_exceptions.md R202: in phase SPENT FINAL is refused and
nothing changes; in phase ACTIVE it counts the tail, composes one block (`fill <= 55`) or two (`fill > 55`), compresses
them in order, leaves the last one in the buffer and makes the digest valid; `fill` is kept. -/
def Obligations.FinalPadsAndCompresses : Prop :=
  ∀ s : State,
    (∀ w : CmdWord, opField w = 0b10 → step (present w s) = exec .final { s with port := none }) ∧
    (s.phase = .spent → exec .final s = .next { s with resp := some .errSpent }) ∧
    (s.phase = .active → ∃ t, exec .final s = .next t ∧
      t.phase = .spent ∧ t.resp = some .ok ∧ t.port = s.port ∧ t.fill = s.fill ∧
      t.bitcount = s.bitcount + BitVec.ofNat 64 (8 * s.fill.val) ∧
      t.digestValid = true ∧
      (∃ v, t.digest = some v ∧ ∀ (i : Fin 8) (k : Fin 4),
        v[4 * i.val + k.val]'(by omega) = t.H[i].extractLsb' (24 - 8 * k.val) 8) ∧
      (s.fill.val ≤ 55 → ∀ M : Block,
        (∀ j : Fin 64, M[j] =
          if j.val < s.fill.val then s.buf.read j
          else if j = s.fill then 0x80
          else if j.val < 56 then 0x00
          else t.bitcount.extractLsb' (8 * (63 - j.val)) 8) →
        t.H = compress s.H M ∧ ∀ j : Fin 64, t.buf.read j = M[j]) ∧
      (55 < s.fill.val → ∀ M N : Block,
        (∀ j : Fin 64, M[j] =
          if j.val < s.fill.val then s.buf.read j else if j = s.fill then 0x80 else 0x00) →
        (∀ j : Fin 64, N[j] = if j.val < 56 then 0x00 else t.bitcount.extractLsb' (8 * (63 - j.val)) 8) →
        t.H = compress (compress s.H M) N ∧ ∀ j : Fin 64, t.buf.read j = N[j]))

/-- 43_engine_finalize.md R177: the padding FSM, started when FINAL is accepted, always reaches SPENT within six
transitions and leaves the very engine of the atomic FINAL; its one branch is at P_MARK, on the latched fill, and no
transition leads back. -/
def Obligations.PaddingMachineEqualsFinal : Prop :=
  (∀ s : State, s.phase = .active → ∃ p, padRun 6 (padStart s.toEngine) = p ∧
    p.point = .ended ∧ p.engine.phase = .spent ∧
    exec .final s = .next { s with toEngine := p.engine, resp := some .ok }) ∧
  (∀ p q : PadMachine, p.point = q.point → p.point ≠ .pMark → (padStep p).point = (padStep q).point) ∧
  (∀ p : PadMachine, p.point = .pMark → (padStep p).point = if p.n.val > 55 then .pSpill else .pLen) ∧
  (∀ (p : PadMachine) (k : Nat), p.point ≠ .ended → (padRun (k + 1) p).point ≠ p.point)

/-- 43_engine_finalize.md R184: FINAL after the bytes of `m` gives the hash of the padded message. -/
def Obligations.FinalGivesThePaddedDigest : Prop :=
  ∀ (m : List Byte) (s : State), Absorbing m s →
    ∃ t, exec .final s = .next t ∧ Finished m t ∧ t.digest = some (messageDigest m) ∧ NotRejected t

/-- 43_engine_finalize.md R179, R184: the padded message is a whole number of blocks, as many as FEED and FINAL compress,
`floor((L + 8) / 64) + 1`. -/
def Obligations.PaddedLengthCountsTheCompressions : Prop :=
  ∀ m : List Byte,
    (pad m).length = 64 * padBlocks m ∧
    padBlocks m = m.length / 64 + finalCompressions ⟨m.length % 64, Nat.mod_lt _ (by decide)⟩ ∧
    padBlocks m = (m.length + 8) / 64 + 1

/-! ### Rejection and responses -/

/-- 60_exceptions.md R204, 30_encoding.md R84: a reserved word in any phase. -/
def Obligations.ReservedWordIsRejected : Prop :=
  ∀ (s : State) (w : CmdWord), opField w = 0b11 →
    step (present w s) = .next { s with resp := some .errIllegal, port := none } ∧
    exec .reserved s = .next { s with resp := some .errIllegal }

/-- 30_encoding.md R88, 60_exceptions.md R205: the order of the tests on an accepted word, and what it then executes. -/
def Obligations.AcceptedWordFollowsTheTestOrder : Prop :=
  ∀ (s : State) (w : CmdWord),
    let taken := { s with port := none }
    step (present w s) =
      if w.extractLsb' 8 2 = 0b11 then .next { taken with resp := some .errIllegal }
      else if w.extractLsb' 8 2 = 0b00 then exec .init taken
      else if s.phase = .spent then .next { taken with resp := some .errSpent }
      else if w.extractLsb' 8 2 = 0b01 then exec (.feed (w.extractLsb' 0 8)) taken
      else exec .final taken

/-- 30_encoding.md R85: every accepted command is answered by exactly one of three responses, which one depends on the
opcode and the phase alone (96_test_vectors_engine.md V41), and an error says that nothing was changed. -/
def Obligations.EveryCommandIsAnswered : Prop :=
  ∀ (s : State) (w : CmdWord), ∃ t, step (present w s) = .next t ∧ t.port = none ∧ t.respValid = true ∧
    t.respPort = some (if opField w = 0b11 then 0b10 else if opField w = 0b00 then 0b00
      else if s.phase = .spent then 0b01 else 0b00) ∧
    (t.respPort ≠ some 0b00 → SameEngine s t)

/-- 60_exceptions.md R207: a stream of rejected commands, however long, leaves the engine as it was. -/
def Obligations.RejectedStreamLeavesTheEngine : Prop :=
  ∀ (ws : List CmdWord) (s : State),
    (∀ w ∈ ws, opField w = 0b11 ∨ (s.phase = .spent ∧ opField w ≠ 0b00)) →
    ∃ t, runStream (ws.map HostEvent.command) s = .next t ∧ SameEngine s t ∧ t.digest = s.digest

/-- 60_exceptions.md R200, 70_reset_and_hazards.md R241: every step answers a next state; nothing stops the block. -/
def Obligations.EveryStepAnswersANextState : Prop := ∀ s : State, ∃ t, step s = .next t

/-- 30_encoding.md R87: an accepted word runs the command it decodes to, on the state with the word taken from the port.
With nothing presented nothing changes: of this 60_exceptions.md R212 gives only that the engine keeps its state; that the
model has such a step (log 4) and that the response stands through it (log 6) is the model's choice. -/
def Obligations.StepRunsTheDecodedCommand : Prop :=
  (∀ (s : State) (w : CmdWord), s.port = some (.command w) →
    step s = exec (decodeWord w) { s with port := none }) ∧
  (∀ s : State, s.port = none → step s = .next s)

/-- 10_state.md R33, R30, 30_encoding.md R87, 43_engine_finalize.md R182: the stream is a parameter of the model. From two
states with the same engine the same stream leaves the same engine, and once an event is taken the same response, whatever
stood on the ports; and wherever the host stands in its stream, what is still to come starts from the state reached. -/
def Obligations.StreamIsAParameterOfTheEngine : Prop :=
  (∀ (events : List HostEvent) (s u : State), SameEngine s u →
    ∃ t v, runStream events s = .next t ∧ runStream events u = .next v ∧
      SameEngine t v ∧ (events ≠ [] → t.resp = v.resp)) ∧
  (∀ (events later : List HostEvent) (s t : State), runStream events s = .next t →
    runStream (events ++ later) s = runStream later t)

/-! ### Encoding -/

/-- 30_encoding.md R82: the four rows partition the 1024 words, and each word decodes to the command of its row, FEED with
the word's low byte. -/
def Obligations.DecodeFollowsTheOpcodeMap : Prop :=
  ∀ w : CmdWord,
    (opcodeTable.filter fun r => r.spells w).map OpcodeRow.mnemonic = [(decodeWord w).mnemonic] ∧
    (w &&& 0x300 = 0x000 → decodeWord w = .init) ∧
    (w &&& 0x300 = 0x100 → decodeWord w = .feed (w.extractLsb' 0 8)) ∧
    (w &&& 0x300 = 0x200 → decodeWord w = .final) ∧
    (w &&& 0x300 = 0x300 → decodeWord w = .reserved)

/-- 96_test_vectors_engine.md V40: words written out from the encoding. -/
def Obligations.WrittenOutWordsDecode : Prop :=
  decodeWord 0b0001011010 = .init ∧ decodeWord 0b0101100001 = .feed 0x61 ∧ decodeWord 0b0110000000 = .feed 0x80 ∧
  decodeWord 0b1010000000 = .final ∧ decodeWord 0b1101100001 = .reserved

/-- 30_encoding.md R82, R83, R89: a command encoded, laid on the port and taken from it is that command, with its operand
at every value; a word without don't-care bits is encoded as itself. Two clauses are the model's choice and no rule of the
spec: that the reserved command is encoded as `0x300` (log 5), in the first clause at `.reserved` and in the second at
`0x300`, and that a number of more than ten bits is refused as `notTenBits` (log 13). -/
def Obligations.EncodeThenDecodeThroughThePort : Prop :=
  (∀ (i : Instr) (s : State), decodeWord (encode i) = i ∧
    decodeTableWord 16 (encode i).toNat = some i ∧
    step (s.withFetchWord 16 (encode i).toNat) = exec i { s with port := none }) ∧
  (∀ w : CmdWord, opField w = 0b01 ∨ dataField w = 0x00 → encode (decodeWord w) = w) ∧
  (∀ n : Nat, 1024 ≤ n → decodeNat n = .error .notTenBits)

/-- 30_encoding.md R89, R90, 42_engine_feed.md R154: the text and byte pseudo-instructions expand to one FEED per byte in
order, so a message cut anywhere is the same stream of commands. -/
def Obligations.FeedLinesExpandByteByByte : Prop :=
  (∀ t u : List Char, (AsmLine.feeds (t ++ u)).words = (AsmLine.feeds t).words ++ (AsmLine.feeds u).words) ∧
  (∀ t : List Char, (AsmLine.feeds t).words.map decodeWord = t.map fun c => Instr.feed (BitVec.ofNat 8 c.toNat)) ∧
  (∀ ns : List Nat, (AsmLine.feedx ns).words.map decodeWord = ns.map fun n => Instr.feed (BitVec.ofNat 8 n)) ∧
  (∀ (n : Nat) (b : ByteOperand), (AsmLine.feedn n b).words.map decodeWord = List.replicate n (Instr.feed b.value)) ∧
  (AsmLine.feeds []).words = [] ∧ ∀ n : Nat, (AsmLine.cmd n).words = [BitVec.ofNat 10 n]

/-! ### The block buffer -/

/-- 20_memory.md R52, R53: `MemWrite(j, n, v)` puts byte `k` of `v`, the most significant first, at `j + k` and touches no
other byte; `MemRead(j, n)` then gives `v` back. -/
def Obligations.BufferAccessIsBigEndian : Prop :=
  ∀ (m : Memory) (j n : Nat) (v : BitVec (8 * n)) (h : j + n ≤ 64),
    (∀ (k : Nat) (hk : k < n), (memWrite m j n v h).read ⟨j + k, by omega⟩ = v.extractLsb' (8 * (n - k - 1)) 8) ∧
    (∀ a : Fin 64, a.val < j ∨ j + n ≤ a.val → (memWrite m j n v h).read a = m.read a) ∧
    memRead (memWrite m j n v h) j n h = v

/-- 40_compress_schedule.md R102, 20_memory.md R51, R52: the word SCHED_LOAD takes from the buffer is `MemRead(4t, 4)`. -/
def Obligations.ScheduleLoadReadsTheBuffer : Prop :=
  ∀ (m : Memory) (t : Nat) (h : t < 16),
    (schedule (readBlock m))[t] = memRead m (4 * t) 4 (by omega)

/-- The canonical form of the buffer is kept by every step from every state that has it (log 2). -/
def Obligations.StepKeepsTheCanonicalBuffer : Prop :=
  ∀ s t : State, s.buf.wf = true → step s = .next t → t.buf.wf = true

/-- 20_memory.md R69, 43_engine_finalize.md R180: bytes at `fill` and above, and all of `buf`, `fill`, `bitcount` in phase
SPENT, reach no response, no digest and nothing later that matters. -/
def Obligations.StaleStateReachesNothing : Prop :=
  ∀ s u : State, LiveEq s u →
    ∃ t v, step s = .next t ∧ step u = .next v ∧ LiveEq t v ∧ t.digest = v.digest

/-! ### The Compression Core -/

/-- 00_scope.md R11, R12: bit by bit, rotation and logical shift. -/
def Obligations.RotateAndShiftBitByBit : Prop :=
  ∀ (x : Word) (n i : Nat), i < 32 →
    (rotr x n).getLsbD i = x.getLsbD ((i + n) % 32) ∧ (shr x n).getLsbD i = (decide (i + n < 32) && x.getLsbD (i + n))

/-- 40_compress_schedule.md R100, R101: σ0 and σ1 bit by bit, the third term a logical shift, and linear over xor. -/
def Obligations.SmallSigmasAreShiftedXors : Prop :=
  (∀ (x : Word) (i : Nat), i < 32 →
    (sigma0 x).getLsbD i = ((x.getLsbD ((i + 7) % 32) ^^ x.getLsbD ((i + 18) % 32)) ^^
      (decide (i + 3 < 32) && x.getLsbD (i + 3))) ∧
    (sigma1 x).getLsbD i = ((x.getLsbD ((i + 17) % 32) ^^ x.getLsbD ((i + 19) % 32)) ^^
      (decide (i + 10 < 32) && x.getLsbD (i + 10)))) ∧
  (∀ x y : Word, sigma0 (x ^^^ y) = sigma0 x ^^^ sigma0 y ∧ sigma1 (x ^^^ y) = sigma1 x ^^^ sigma1 y)

/-- 41_compress_round.md R120, R121: Σ0 and Σ1 bit by bit, three rotations and no shift. -/
def Obligations.BigSigmasAreRotatedXors : Prop :=
  ∀ (x : Word) (i : Nat), i < 32 →
    (bigSigma0 x).getLsbD i =
      ((x.getLsbD ((i + 2) % 32) ^^ x.getLsbD ((i + 13) % 32)) ^^ x.getLsbD ((i + 22) % 32)) ∧
    (bigSigma1 x).getLsbD i =
      ((x.getLsbD ((i + 6) % 32) ^^ x.getLsbD ((i + 11) % 32)) ^^ x.getLsbD ((i + 25) % 32))

/-- 41_compress_round.md R122, R123: Ch selects, Maj votes, bit by bit. -/
def Obligations.ChSelectsAndMajVotes : Prop :=
  ∀ x y z : Word,
    (∀ i : Nat, i < 32 → (ch x y z).getLsbD i = if x.getLsbD i then y.getLsbD i else z.getLsbD i) ∧
    (∀ i : Nat, i < 32 → (maj x y z).getLsbD i =
      decide (2 ≤ (x.getLsbD i).toNat + (y.getLsbD i).toNat + (z.getLsbD i).toNat))

/-- 41_compress_round.md R133, an inference of the spec's own: the two cross-check identities. -/
def Obligations.ChAndMajIdentities : Prop :=
  ∀ x y z : Word, ch x y z = z ^^^ (x &&& (y ^^^ z)) ∧ maj x y z = (x &&& y) ||| (z &&& (x ||| y))

/-- 40_compress_schedule.md R102, R103: the first sixteen words are the block's bytes big-endian, every later word is the
sum of the recurrence. -/
def Obligations.ScheduleFollowsTheRecurrence : Prop :=
  ∀ M : Block,
    (∀ (t : Nat) (h : t < 16),
      (schedule M)[t].toNat = M[4 * t].toNat * 2 ^ 24 + M[4 * t + 1].toNat * 2 ^ 16 + M[4 * t + 2].toNat * 2 ^ 8 +
        M[4 * t + 3].toNat) ∧
    (∀ (t : Nat) (_ : 16 ≤ t) (h : t < 64),
      (schedule M)[t] = (schedule M)[t - 16] + sigma0 (schedule M)[t - 15] + (schedule M)[t - 7] +
        sigma1 (schedule M)[t - 2])

/-- 41_compress_round.md R127: the eight assignments of one round. -/
def Obligations.RoundShiftsTheWorkingVariables : Prop :=
  ∀ (v : WorkVars) (k w : Word),
    let t1 := v.h + bigSigma1 v.e + ch v.e v.f v.g + k + w
    let t2 := bigSigma0 v.a + maj v.a v.b v.c
    hashRound v k w =
      { a := t1 + t2, b := v.a, c := v.b, d := v.c, e := v.d + t1, f := v.e, g := v.f, h := v.g }

/-- 41_compress_round.md R124, R128, R129, R131: the working variables start as the input state, go through ROUND(0) ..
ROUND(63) in that order, and are added onto the input state word by word. -/
def Obligations.CompressRunsSixtyFourRounds : Prop :=
  ∀ (S : HashState) (M : Block), ∃ v : Fin 65 → WorkVars,
    v 0 = { a := S[0], b := S[1], c := S[2], d := S[3], e := S[4], f := S[5], g := S[6], h := S[7] } ∧
    (∀ t : Fin 64, v t.succ = hashRound (v t.castSucc) Config.K[t] (schedule M)[t]) ∧
    compress S M = #v[S[0] + (v 64).a, S[1] + (v 64).b, S[2] + (v 64).c, S[3] + (v 64).d,
      S[4] + (v 64).e, S[5] + (v 64).f, S[6] + (v 64).g, S[7] + (v 64).h]

/-- 10_state.md R32: whatever an earlier invocation left in `W` and `a` .. `h` reaches neither the result nor the scratch
left behind. -/
def Obligations.LeftoverScratchReachesNoResult : Prop :=
  ∀ (sc sc' : Scratch) (S : HashState) (M : Block),
    (compressOver sc S M).2 = compress S M ∧ (compressOver sc S M).1 = (compressOver sc' S M).1

/-- 41_compress_round.md R132, 20_memory.md R57: the Compression Core seen at its ports. -/
def Obligations.CompressPortPacksBigEndian : Prop :=
  ∀ (stateIn : BitVec 256) (block : BitVec 512) (S : HashState) (M : Block),
    (∀ i : Fin 8, S[i] = stateIn.extractLsb' (224 - 32 * i.val) 32) →
    (∀ j : Fin 64, M[j] = block.extractLsb' (504 - 8 * j.val) 8) →
    ∀ i : Fin 8, (compressPort stateIn block).extractLsb' (224 - 32 * i.val) 32 = (compress S M)[i]

/-! ### The flag, the digest, and who may write what -/

/-- 20_memory.md R55, 43_engine_finalize.md R181: in phase SPENT `digest_valid` is 1 and digest byte `4i + k` is
`H[i][31-8k : 24-8k]`; in phase ACTIVE `digest_valid` is 0. That the digest is then absent is the model's choice (log 7),
the one R181 and 93_implementation_defined.md U4 ask of a model; the port itself reads as 256 zero bits. -/
def Obligations.DigestIsTheSerializedState : Prop :=
  ∀ s : State,
    (s.phase = .active → s.digestValid = false ∧ s.digest = none ∧ s.digestPort = none) ∧
    (s.phase = .spent → s.digestValid = true ∧ ∃ v, s.digest = some v ∧
      ∀ (i : Fin 8) (k : Fin 4),
        v[4 * i.val + k.val]'(by omega) = s.H[i].extractLsb' (24 - 8 * k.val) 8)

/-- 20_memory.md R57: the digest port carries digest byte `k` in bits `[255-8k : 248-8k]`; the ports of the Compression
Core carry word `i` in `[255-32i : 224-32i]` and block byte `j` in `[511-8j : 504-8j]`. -/
def Obligations.WidePortsPackBigEndian : Prop :=
  (∀ s : State, s.phase = .spent → ∃ p v, s.digestPort = some p ∧ s.digest = some v ∧
    (∀ k : Fin 32, p.extractLsb' (248 - 8 * k.val) 8 = v[k]) ∧
    p.extractLsb' 224 32 = s.H[0] ∧ p.extractLsb' 0 32 = s.H[7]) ∧
  (∀ (p : BitVec 256) (i : Fin 8), (unpackState p)[i] = p.extractLsb' (224 - 32 * i.val) 32) ∧
  (∀ p : BitVec 256, packState (unpackState p) = p) ∧
  (∀ (p : BitVec 512) (j : Fin 64), (unpackBlock p)[j] = p.extractLsb' (504 - 8 * j.val) 8)

/-- 43_engine_finalize.md R176, R181, 20_memory.md R62: once valid the digest stays as it is; only INIT or reset ends it.
That the digest is absent in phase ACTIVE is the model's choice (log 7). -/
def Obligations.DigestStandsUntilInitOrReset : Prop :=
  ∀ s t : State, s.phase = .spent → step s = .next t →
    (t.phase = .spent ∧ t.digest = s.digest) ∨
    (t.phase = .active ∧ t.digest = none ∧
      (s.port = some .reset ∨ ∃ w, s.port = some (.command w) ∧ decodeWord w = .init))

/-- 10_state.md R28: `phase` is set to SPENT by FINAL alone and to ACTIVE by INIT and reset alone; ACTIVE is 0, SPENT is 1,
and `digest_valid` shows it. -/
def Obligations.OnlyFinalSpendsOnlyInitRevives : Prop :=
  (∀ s t : State, step s = .next t →
    (s.phase = .active → t.phase = .spent → ∃ w, s.port = some (.command w) ∧ decodeWord w = .final) ∧
    (s.phase = .spent → t.phase = .active →
      s.port = some .reset ∨ ∃ w, s.port = some (.command w) ∧ decodeWord w = .init)) ∧
  Phase.active.bit = 0 ∧ Phase.spent.bit = 1 ∧ ∀ s : State, s.digestValid = (s.phase.bit == 1)

/-- 10_state.md R21, R27, R36: `H` and `bitcount` change only by reset, INIT, a FEED that completes a block, and FINAL; a
new `H` is `IV` or an output of `compress`. -/
def Obligations.HashStateHasFourWriters : Prop :=
  ∀ s t : State, step s = .next t →
    (t.H = s.H ∧ t.bitcount = s.bitcount) ∨
    (t.H = Config.IV ∧ t.bitcount = 0 ∧
      (s.port = some .reset ∨ ∃ w, s.port = some (.command w) ∧ decodeWord w = .init)) ∨
    (s.phase = .active ∧ s.fill.val = 63 ∧ t.bitcount = s.bitcount + 512 ∧ (∃ M, t.H = compress s.H M) ∧
      ∃ w d, s.port = some (.command w) ∧ decodeWord w = .feed d) ∨
    (s.phase = .active ∧ t.phase = .spent ∧ t.bitcount = s.bitcount + BitVec.ofNat 64 (8 * s.fill.val) ∧
      ((s.fill.val ≤ 55 ∧ ∃ M, t.H = compress s.H M) ∨
        (55 < s.fill.val ∧ ∃ M N, t.H = compress (compress s.H M) N)) ∧
      ∃ w, s.port = some (.command w) ∧ decodeWord w = .final)

/-! ### The invariant and the headline -/

/-- 10_state.md R35 at reset. -/
def Obligations.TheInvariantHoldsAtReset : Prop := Inv State.reset ∧ Absorbing [] State.reset

/-- 10_state.md R35: every step from every state that holds the state of some message leaves a state that holds the state
of some message, with the buffer in canonical form. -/
def Obligations.StepKeepsTheMessageInvariant : Prop :=
  ∀ s t : State, Inv s → step s = .next t → Inv t

/-- 43_engine_finalize.md R184, 70_reset_and_hazards.md R239: from any state, the stream INIT, one FEED per byte of `m`,
FINAL runs to the end and leaves the reference digest of `m`, with its length in bits counted exactly where `m` is in the
supported domain. -/
def Obligations.StreamComputesTheReferenceDigest : Prop :=
  ∀ (m : List Byte) (s : State),
    ∃ t, runStream (hashStream m) s = .next t ∧ t.resp = some .ok ∧
      Finished m t ∧ t.digest = some (messageDigest m) ∧
      (Supported m → t.bitcount.toNat = 8 * m.length)
end

