-- ==== Sys2Proof/Laws/Compression.lean ====
section
/-! SUPPORT. What the loops of the Compression Core leave at each index, and the words of a packed state. -/

namespace Sys2Proof.Machine

/-- After `k` turns of SCHED_LOAD the first `k` words are loaded and the others are as before. -/
theorem schedLoad_getElem (W : Schedule) (M : Block) (k t : Nat) (ht : t < 64) (hk : k ≤ 16) :
    (schedLoad W M k)[t] = if h : t < k then blockWord M t (by omega) else W[t] := by
  induction k with
  | zero => simp [schedLoad]
  | succ k ih =>
    have e : schedLoad W M (k + 1) = (schedLoad W M k).set k (blockWord M k (by omega)) := by
      rw [schedLoad, dif_pos (by omega)]
    simp only [e]
    rw [Vector.getElem_set, ih (by omega)]
    by_cases h : k = t
    · subst h; simp
    · by_cases h2 : t < k
      · simp [h, h2, show t < k + 1 by omega]
      · simp [h, h2, show ¬ t < k + 1 by omega]

/-- One turn of SCHED_EXPAND. -/
theorem schedExpand_succ (W : Schedule) (k : Nat) (hk : k < 48) :
    schedExpand W (k + 1) = (schedExpand W k).set (16 + k)
      (add32 (add32 (add32 (schedExpand W k)[k] (sigma0 (schedExpand W k)[k + 1])) (schedExpand W k)[k + 9])
        (sigma1 (schedExpand W k)[k + 14])) := by
  rw [schedExpand, dif_pos hk]

/-- A word once derived is not written again. -/
theorem schedExpand_stable (W : Schedule) (k t : Nat) (ht : t < 64) (h : t < 16 + k) (n : Nat) :
    (schedExpand W (k + n))[t] = (schedExpand W k)[t] := by
  induction n with
  | zero => rfl
  | succ n ih =>
    rw [← ih]
    show (schedExpand W (k + n + 1))[t] = _
    by_cases hk : k + n < 48
    · simp only [schedExpand_succ W (k + n) hk]
      rw [Vector.getElem_set_ne _ _ (by omega)]
    · have e : schedExpand W (k + n + 1) = schedExpand W (k + n) := by rw [schedExpand, dif_neg hk]
      simp only [e]

/-- SCHED_EXPAND leaves the loaded words alone. -/
theorem schedExpand_low (W : Schedule) (k t : Nat) (ht : t < 16) : (schedExpand W k)[t] = W[t] := by
  have h := schedExpand_stable W 0 t (by omega) (by omega) k
  simpa [schedExpand] using h

/-- One round more. -/
theorem hashRounds_succ (W : Schedule) (v : WorkVars) (t : Nat) (h : t < 64) :
    hashRounds W v (t + 1) = hashRound (hashRounds W v t) Config.K[t] W[t] := by
  rw [hashRounds, dif_pos h]

/-- Bit `j` of word `i` of a packed state. -/
theorem packState_getLsbD (H : HashState) (i : Fin 8) (j : Nat) (hj : j < 32) :
    (packState H).getLsbD (224 - 32 * i.val + j) = H[i].getLsbD j := by
  have place (w : Word) (k : Nat) (hk : k < 8) :
      (w.setWidth 256 <<< (224 - 32 * k)).getLsbD (224 - 32 * i.val + j) = if k = i.val then w.getLsbD j else false := by
    rw [BitVec.getLsbD_shiftLeft, BitVec.getLsbD_setWidth]
    by_cases e : k = i.val
    · subst e
      simp [show 224 - 32 * i.val + j < 256 by omega, show j < 256 by omega]
    · rw [if_neg e]
      by_cases l : k < i.val
      · simp [show 224 - 32 * i.val + j < 224 - 32 * k by omega]
      · rw [BitVec.getLsbD_of_ge w _ (by omega)]; simp
  unfold packState placeWord
  simp only [BitVec.getLsbD_or]
  rw [place _ 0 (by omega), place _ 1 (by omega), place _ 2 (by omega), place _ 3 (by omega),
    place _ 4 (by omega), place _ 5 (by omega), place _ 6 (by omega), place _ 7 (by omega)]
  fin_cases i <;> simp

end Sys2Proof.Machine
end

