-- ==== Sys2Proof/Laws/Memory.lean ====
section
/-! SUPPORT. The laws of the block buffer: a read after a write, the frame of every write, the canonical form. -/

namespace Sys2Proof.Machine

theorem Memory.lookup_cons (c : Host.Cell) (m : Memory) (a : Nat) :
    Memory.lookup (c :: m) a = if c.1 = a then c.2 else Memory.lookup m a := rfl

/-- Dropping the cells of one offset makes that offset unlisted and no other. -/
theorem Memory.lookup_filter_ne (m : Memory) (j a : Nat) :
    Memory.lookup (m.filter fun c => c.1 != j) a = if a = j then Memory.unlisted else m.lookup a := by
  induction m with
  | nil => simp [Memory.lookup]
  | cons c rest ih =>
    by_cases hc : c.1 = j
    · rw [List.filter_cons_of_neg (by simpa using hc), ih, Memory.lookup_cons]
      by_cases ha : a = j
      · simp [ha]
      · have : c.1 ≠ a := fun h => ha (h.symm.trans hc)
        simp [ha, this]
    · rw [List.filter_cons_of_pos (by simpa using hc), Memory.lookup_cons, ih, Memory.lookup_cons]
      by_cases ha : a = j
      · have : c.1 ≠ a := fun h => hc (h.trans ha)
        simp only [ha, if_true] at this ⊢
        simp [this]
      · simp [ha]

/-- A cell put at an offset no cell of the list has. -/
theorem Memory.lookup_insertCell (m : Memory) (j a : Nat) (b : Byte) (hn : ∀ c ∈ m, c.1 ≠ j) :
    Memory.lookup (Memory.insertCell (j, b) m) a = if a = j then b else m.lookup a := by
  induction m with
  | nil => simp only [Memory.insertCell, Memory.lookup_cons, eq_comm (a := j)]
  | cons c rest ih =>
    have hc : c.1 ≠ j := hn c (by simp)
    unfold Memory.insertCell
    split
    · simp only [Memory.lookup_cons, eq_comm (a := j)]
    · rw [Memory.lookup_cons, ih fun d hd => hn d (by simp [hd]), Memory.lookup_cons]
      by_cases ha : a = j
      · simp [ha, hc]
      · simp [ha]

/-- A read after a write: the byte written at its offset, the old byte everywhere else. -/
theorem Memory.read_write (m : Memory) (j a : Fin 64) (b : Byte) :
    (m.write j b).read a = if a = j then b else m.read a := by
  have hv : a.val = j.val ↔ a = j := Fin.ext_iff.symm
  unfold Memory.write Memory.read
  by_cases hb : b = Memory.unlisted
  · simp only [hb, if_true, Memory.lookup_filter_ne, hv]
  · simp only [hb, if_false]
    rw [Memory.lookup_insertCell _ _ _ _ (by simp), Memory.lookup_filter_ne]
    by_cases ha : a = j <;> simp [hv, ha]

@[simp] theorem Memory.read_cleared (a : Fin 64) : Memory.cleared.read a = 0x00 := rfl

/-- A read after the first `k` turns of the zero fill. -/
theorem read_zeroBytes (m : Memory) (lo k : Nat) (a : Fin 64) :
    (zeroBytes m lo k).read a = if lo ≤ a.val ∧ a.val < lo + k then 0x00 else m.read a := by
  induction k with
  | zero => rw [zeroBytes, if_neg (by omega)]
  | succ k ih =>
    unfold zeroBytes
    split
    · rename_i h
      rw [Memory.read_write, ih]
      by_cases ha : a.val = lo + k
      · have : a = ⟨lo + k, h⟩ := Fin.ext ha
        simp [this]
      · have : a ≠ ⟨lo + k, h⟩ := fun e => ha (by rw [e])
        simp only [this, if_false]
        congr 1
        apply propext; omega
    · rename_i h
      rw [ih]
      congr 1
      apply propext; omega

/-- A read after the zero fill: zero from `lo` on, the old byte below it (43_engine_finalize.md R172). -/
theorem read_zeroFill (m : Memory) (lo : Nat) (a : Fin 64) :
    (zeroFill m lo).read a = if lo ≤ a.val then 0x00 else m.read a := by
  unfold zeroFill
  rw [read_zeroBytes]
  congr 1
  apply propext; omega

/-- A read after the first `k` byte writes of `MemWrite`. -/
theorem read_memWriteBytes (m : Memory) (j n : Nat) (v : BitVec (8 * n)) (h : j + n ≤ 64) (k : Nat) (hk : k ≤ n)
    (a : Fin 64) :
    (memWriteBytes m j n v h k hk).read a =
      if j ≤ a.val ∧ a.val < j + k then v.extractLsb' (8 * (n - (a.val - j) - 1)) 8 else m.read a := by
  induction k with
  | zero => rw [memWriteBytes, if_neg (by omega)]
  | succ k ih =>
    unfold memWriteBytes
    rw [Memory.read_write, ih (by omega)]
    by_cases ha : a.val = j + k
    · have : a = ⟨j + k, by omega⟩ := Fin.ext ha
      simp [this]
    · have : a ≠ ⟨j + k, by omega⟩ := fun e => ha (by rw [e])
      simp only [this, if_false]
      congr 1
      apply propext; omega

/-- A read after `MemWrite(j, n, v)`: byte `a - j` of the value, the most significant first, inside the bytes written; the
old byte outside them (20_memory.md R53). -/
theorem read_memWrite (m : Memory) (j n : Nat) (v : BitVec (8 * n)) (h : j + n ≤ 64) (a : Fin 64) :
    (memWrite m j n v h).read a =
      if j ≤ a.val ∧ a.val < j + n then v.extractLsb' (8 * (n - (a.val - j) - 1)) 8 else m.read a :=
  read_memWriteBytes m j n v h n (Nat.le_refl n) a

/-- A one-byte `MemWrite` is the write of that byte. -/
theorem memWrite_one (m : Memory) (j : Nat) (b : Byte) (h : j + 1 ≤ 64) :
    memWrite m j 1 b h = m.write ⟨j, by omega⟩ b := by
  have hb : BitVec.extractLsb' 0 8 b = b := by
    ext i hi; simp
  simp only [memWrite, memWriteBytes, Nat.add_zero]
  congr 1

/-- `MemRead` of one more byte, as a number: the bytes before it are the more significant (20_memory.md R52). -/
theorem memRead_succ_toNat (m : Memory) (j n : Nat) (h : j + (n + 1) ≤ 64) :
    (memRead m j (n + 1) h).toNat = (memRead m j n (by omega)).toNat * 2 ^ 8 + (m.read ⟨j + n, by omega⟩).toNat := by
  have hb : (m.read ⟨j + n, by omega⟩).toNat < 2 ^ 8 := (m.read ⟨j + n, by omega⟩).isLt
  show ((memRead m j n (by omega)) ++ m.read ⟨j + n, by omega⟩).toNat = _
  rw [BitVec.toNat_append, ← Nat.shiftLeft_add_eq_or_of_lt hb, Nat.shiftLeft_eq]

/-- `MemRead` depends only on the bytes it reads. -/
theorem memRead_congr (m m' : Memory) (j n : Nat) (h : j + n ≤ 64)
    (e : ∀ a : Fin 64, j ≤ a.val → a.val < j + n → m.read a = m'.read a) : memRead m j n h = memRead m' j n h := by
  induction n with
  | zero => rfl
  | succ n ih =>
    unfold memRead
    rw [ih (by omega) fun a h1 h2 => e a h1 (by omega), e _ (by simp) (by simp)]

theorem readBlock_getElem (m : Memory) (j : Nat) (h : j < 64) : (readBlock m)[j] = m.read ⟨j, h⟩ := by
  simp [readBlock]

/-- The block of a buffer is the only block with the buffer's bytes. -/
theorem eq_readBlock (m : Memory) (M : Block) (h : ∀ j : Fin 64, M[j] = m.read j) : M = readBlock m := by
  apply Vector.ext
  intro i hi
  rw [readBlock_getElem]
  exact h ⟨i, hi⟩

/-! ### The canonical form -/

theorem Memory.wf_iff (m : Memory) :
    m.wf = true ↔ m.Pairwise (fun c d => c.1 < d.1) ∧ ∀ c ∈ m, c.1 < 64 ∧ c.2 ≠ Memory.unlisted := by
  simp [Memory.wf, List.all_eq_true]

theorem Memory.mem_insertCell (c d : Host.Cell) (m : Memory) :
    d ∈ Memory.insertCell c m ↔ d = c ∨ d ∈ m := by
  induction m with
  | nil => simp [Memory.insertCell]
  | cons e rest ih =>
    unfold Memory.insertCell
    split
    · simp
    · simp [ih]; tauto

theorem Memory.pairwise_insertCell (c : Host.Cell) (m : Memory) (h : m.Pairwise fun d e => d.1 < e.1)
    (hn : ∀ d ∈ m, d.1 ≠ c.1) : (Memory.insertCell c m).Pairwise fun d e => d.1 < e.1 := by
  induction m with
  | nil => simp [Memory.insertCell]
  | cons e rest ih =>
    rw [List.pairwise_cons] at h
    unfold Memory.insertCell
    split
    · rename_i hlt
      refine List.Pairwise.cons ?_ (List.Pairwise.cons h.1 h.2)
      intro d hd
      rcases List.mem_cons.mp hd with rfl | hd
      · exact hlt
      · exact Nat.lt_trans hlt (h.1 d hd)
    · rename_i hlt
      refine List.Pairwise.cons ?_ (ih h.2 fun d hd => hn d (by simp [hd]))
      intro d hd
      rcases (Memory.mem_insertCell c d rest).mp hd with rfl | hd
      · have := hn e (by simp); omega
      · exact h.1 d hd

/-- A write keeps the canonical form. -/
theorem Memory.wf_write (m : Memory) (j : Fin 64) (b : Byte) (h : m.wf = true) : (m.write j b).wf = true := by
  rw [Memory.wf_iff] at h ⊢
  have hf : (m.filter fun c => c.1 != j.val).Pairwise fun c d => c.1 < d.1 := h.1.filter _
  unfold Memory.write
  by_cases hb : b = Memory.unlisted
  · simp only [hb, if_true]
    exact ⟨hf, fun c hc => h.2 c (List.mem_filter.mp hc).1⟩
  · simp only [hb, if_false]
    refine ⟨Memory.pairwise_insertCell _ _ hf (by simp), ?_⟩
    intro c hc
    rcases (Memory.mem_insertCell _ _ _).mp hc with rfl | hc
    · exact ⟨j.isLt, hb⟩
    · exact h.2 c (List.mem_filter.mp hc).1

@[simp] theorem Memory.wf_cleared : Memory.wf Memory.cleared = true := rfl

theorem wf_zeroFill (m : Memory) (lo : Nat) (h : m.wf = true) : (zeroFill m lo).wf = true := by
  unfold zeroFill
  generalize 64 - lo = k
  induction k with
  | zero => exact h
  | succ k ih =>
    unfold zeroBytes
    split
    · exact Memory.wf_write _ _ _ ih
    · exact ih

theorem wf_memWrite (m : Memory) (j n : Nat) (v : BitVec (8 * n)) (hj : j + n ≤ 64) (h : m.wf = true) :
    (memWrite m j n v hj).wf = true := by
  unfold memWrite
  suffices ∀ k hk, (memWriteBytes m j n v hj k hk).wf = true from this n _
  intro k
  induction k with
  | zero => intro _; exact h
  | succ k ih => intro hk; exact Memory.wf_write _ _ _ (ih _)

end Sys2Proof.Machine
end

