-- ==== Sys2Proof/Laws/State.lean ====
section
/-! SUPPORT. One lemma per field per update of the state, all true by unfolding. -/

namespace Sys2Proof.Machine

/-! ### `State.answered`, `accept`, `reject`, `resetAction` -/

@[simp] theorem answered_toEngine (s : State) (a : Answer) : (s.answered a).toEngine = a.engine := rfl
@[simp] theorem answered_resp (s : State) (a : Answer) : (s.answered a).resp = some a.resp := rfl
@[simp] theorem answered_port (s : State) (a : Answer) : (s.answered a).port = s.port := rfl
@[simp] theorem accept_engine (e : Engine) : (accept e).engine = e := rfl
@[simp] theorem accept_resp (e : Engine) : (accept e).resp = .ok := rfl
@[simp] theorem reject_engine (code : Response) (e : Engine) : (reject code e).engine = e := rfl
@[simp] theorem reject_resp (code : Response) (e : Engine) : (reject code e).resp = code := rfl
@[simp] theorem resetAction_toEngine (s : State) : (resetAction s).toEngine = constructed := rfl
@[simp] theorem resetAction_resp (s : State) : (resetAction s).resp = none := rfl
@[simp] theorem resetAction_port (s : State) : (resetAction s).port = s.port := rfl

/-- A rejected command leaves the state as it was but for the response. -/
theorem answered_reject (s : State) (code : Response) :
    s.answered (reject code s.toEngine) = { s with resp := some code } := rfl

/-! ### `constructed` -/

@[simp] theorem constructed_H : constructed.H = Config.IV := rfl
@[simp] theorem constructed_buf : constructed.buf = Memory.cleared := rfl
@[simp] theorem constructed_fill : constructed.fill = 0 := rfl
@[simp] theorem constructed_bitcount : constructed.bitcount = 0 := rfl
@[simp] theorem constructed_phase : constructed.phase = .active := rfl
theorem reset_toEngine : State.reset.toEngine = constructed := rfl

/-! ### `compressBuffer` -/

@[simp] theorem compressBuffer_H (e : Engine) : (compressBuffer e).H = compress e.H (readBlock e.buf) := rfl
@[simp] theorem compressBuffer_buf (e : Engine) : (compressBuffer e).buf = e.buf := rfl
@[simp] theorem compressBuffer_fill (e : Engine) : (compressBuffer e).fill = e.fill := rfl
@[simp] theorem compressBuffer_bitcount (e : Engine) : (compressBuffer e).bitcount = e.bitcount := rfl
@[simp] theorem compressBuffer_phase (e : Engine) : (compressBuffer e).phase = e.phase := rfl

/-! ### `drain` -/

@[simp] theorem drain_H (e : Engine) : (drain e).H = compress e.H (readBlock e.buf) := rfl
@[simp] theorem drain_buf (e : Engine) : (drain e).buf = e.buf := rfl
@[simp] theorem drain_fill (e : Engine) : (drain e).fill = 0 := rfl
@[simp] theorem drain_bitcount (e : Engine) : (drain e).bitcount = add64 e.bitcount Config.blockBits := rfl
@[simp] theorem drain_phase (e : Engine) : (drain e).phase = e.phase := rfl

/-! ### `storeByte` -/

@[simp] theorem storeByte_H (d : Byte) (e : Engine) : (storeByte d e).H = e.H := rfl
@[simp] theorem storeByte_buf (d : Byte) (e : Engine) : (storeByte d e).buf = memWrite e.buf e.fill.val 1 d (by omega) := rfl
@[simp] theorem storeByte_fill (d : Byte) (e : Engine) : (storeByte d e).fill = e.fill := rfl
@[simp] theorem storeByte_bitcount (d : Byte) (e : Engine) : (storeByte d e).bitcount = e.bitcount := rfl
@[simp] theorem storeByte_phase (d : Byte) (e : Engine) : (storeByte d e).phase = e.phase := rfl

/-! ### `finalCount` -/

@[simp] theorem finalCount_H (e : Engine) : (finalCount e).H = e.H := rfl
@[simp] theorem finalCount_buf (e : Engine) : (finalCount e).buf = e.buf := rfl
@[simp] theorem finalCount_fill (e : Engine) : (finalCount e).fill = e.fill := rfl
@[simp] theorem finalCount_bitcount (e : Engine) : (finalCount e).bitcount = add64 e.bitcount (tailBits e) := rfl
@[simp] theorem finalCount_phase (e : Engine) : (finalCount e).phase = e.phase := rfl

/-! ### `finalMark` -/

@[simp] theorem finalMark_H (e : Engine) : (finalMark e).H = e.H := rfl
@[simp] theorem finalMark_buf (e : Engine) : (finalMark e).buf = zeroFill (memWrite e.buf e.fill.val 1 Config.marker (by omega)) (e.fill.val + 1) := rfl
@[simp] theorem finalMark_fill (e : Engine) : (finalMark e).fill = e.fill := rfl
@[simp] theorem finalMark_bitcount (e : Engine) : (finalMark e).bitcount = e.bitcount := rfl
@[simp] theorem finalMark_phase (e : Engine) : (finalMark e).phase = e.phase := rfl

/-! ### `finalSpillBlock` -/

@[simp] theorem finalSpillBlock_H (e : Engine) : (finalSpillBlock e).H = compress e.H (readBlock e.buf) := rfl
@[simp] theorem finalSpillBlock_buf (e : Engine) : (finalSpillBlock e).buf = Memory.cleared := rfl
@[simp] theorem finalSpillBlock_fill (e : Engine) : (finalSpillBlock e).fill = e.fill := rfl
@[simp] theorem finalSpillBlock_bitcount (e : Engine) : (finalSpillBlock e).bitcount = e.bitcount := rfl
@[simp] theorem finalSpillBlock_phase (e : Engine) : (finalSpillBlock e).phase = e.phase := rfl

/-! ### `finalLength` -/

@[simp] theorem finalLength_H (e : Engine) : (finalLength e).H = e.H := rfl
@[simp] theorem finalLength_buf (e : Engine) : (finalLength e).buf = memWrite e.buf lengthOffset 8 e.bitcount (by decide) := rfl
@[simp] theorem finalLength_fill (e : Engine) : (finalLength e).fill = e.fill := rfl
@[simp] theorem finalLength_bitcount (e : Engine) : (finalLength e).bitcount = e.bitcount := rfl
@[simp] theorem finalLength_phase (e : Engine) : (finalLength e).phase = e.phase := rfl

/-! ### `finalLast` -/

@[simp] theorem finalLast_H (e : Engine) : (finalLast e).H = compress e.H (readBlock e.buf) := rfl
@[simp] theorem finalLast_buf (e : Engine) : (finalLast e).buf = e.buf := rfl
@[simp] theorem finalLast_fill (e : Engine) : (finalLast e).fill = e.fill := rfl
@[simp] theorem finalLast_bitcount (e : Engine) : (finalLast e).bitcount = e.bitcount := rfl
@[simp] theorem finalLast_phase (e : Engine) : (finalLast e).phase = e.phase := rfl

/-! ### `finalDone` -/

@[simp] theorem finalDone_H (e : Engine) : (finalDone e).H = e.H := rfl
@[simp] theorem finalDone_buf (e : Engine) : (finalDone e).buf = e.buf := rfl
@[simp] theorem finalDone_fill (e : Engine) : (finalDone e).fill = e.fill := rfl
@[simp] theorem finalDone_bitcount (e : Engine) : (finalDone e).bitcount = e.bitcount := rfl
@[simp] theorem finalDone_phase (e : Engine) : (finalDone e).phase = .spent := rfl

/-! ### `advance` and `finalSpill` -/

@[simp] theorem advance_buf (e : Engine) : (advance e).buf = e.buf := by unfold advance; split <;> rfl
@[simp] theorem advance_phase (e : Engine) : (advance e).phase = e.phase := by unfold advance; split <;> rfl
@[simp] theorem finalSpill_fill (e : Engine) : (finalSpill e).fill = e.fill := by unfold finalSpill; split <;> rfl
@[simp] theorem finalSpill_bitcount (e : Engine) : (finalSpill e).bitcount = e.bitcount := by unfold finalSpill; split <;> rfl
@[simp] theorem finalSpill_phase (e : Engine) : (finalSpill e).phase = e.phase := by unfold finalSpill; split <;> rfl

/-! ### The ports -/

@[simp] theorem drive_toEngine (event : HostEvent) (s : State) : (drive event s).toEngine = s.toEngine := rfl
@[simp] theorem drive_resp (event : HostEvent) (s : State) : (drive event s).resp = s.resp := rfl
@[simp] theorem drive_port (event : HostEvent) (s : State) : (drive event s).port = some event := rfl
@[simp] theorem present_toEngine (w : CmdWord) (s : State) : (present w s).toEngine = s.toEngine := rfl
@[simp] theorem present_resp (w : CmdWord) (s : State) : (present w s).resp = s.resp := rfl
@[simp] theorem present_port (w : CmdWord) (s : State) : (present w s).port = some (.command w) := rfl

end Sys2Proof.Machine
end

