-- ==== Sys2Proof/Laws/Ops.lean ====
section
/-! SUPPORT. What each shared operation, each command and one step can do, said once. -/

namespace Sys2Proof.Machine

theorem isSpent_iff (e : Engine) : isSpent e = true ↔ e.phase = .spent := by simp [isSpent]

theorem not_isSpent_iff (e : Engine) : isSpent e = false ↔ e.phase = .active := by
  unfold isSpent; cases e.phase <;> simp

/-- An engine is in one phase or the other. -/
theorem phase_cases (e : Engine) : e.phase = .active ∨ e.phase = .spent := by
  cases e.phase <;> simp

theorem spills_iff (n : Fin 64) : spills n = true ↔ 55 < n.val := by simp [spills]

/-- FEED of a full buffer but one byte drains. -/
theorem advance_full (e : Engine) (h : e.fill.val = 63) : advance e = drain e := by
  unfold advance; rw [dif_pos (by omega)]

/-- FEED otherwise only counts the byte. -/
theorem advance_room (e : Engine) (h : e.fill.val < 63) :
    advance e = { e with fill := ⟨e.fill.val + 1, by omega⟩ } := by
  unfold advance; rw [dif_neg (by omega)]

theorem storeByte_read (d : Byte) (e : Engine) (a : Fin 64) :
    (storeByte d e).buf.read a = if a = e.fill then d else e.buf.read a := by
  rw [storeByte_buf, memWrite_one, Memory.read_write]

/-- The buffer after step 2 of FINAL: tail, marker, zeros (20_memory.md R63). -/
theorem finalMark_read (e : Engine) (a : Fin 64) :
    (finalMark e).buf.read a =
      if a.val < e.fill.val then e.buf.read a else if a = e.fill then Config.marker else 0x00 := by
  rw [finalMark_buf, read_zeroFill, memWrite_one, Memory.read_write]
  by_cases h : a = e.fill
  · subst h; simp
  · have : a.val ≠ e.fill.val := fun e => h (Fin.ext e)
    by_cases hlt : a.val < e.fill.val
    · simp [h, hlt, show ¬ e.fill.val + 1 ≤ a.val by omega]
    · simp [h, hlt, show e.fill.val + 1 ≤ a.val by omega]

/-- The buffer after steps 1 and 2 of FINAL. -/
theorem finalMark_finalCount_read (e : Engine) (a : Fin 64) :
    (finalMark (finalCount e)).buf.read a =
      if a.val < e.fill.val then e.buf.read a else if a = e.fill then Config.marker else 0x00 :=
  finalMark_read (finalCount e) a

/-- The buffer after step 4 of FINAL: the count in bytes 56 .. 63, nothing else written (20_memory.md R54). -/
theorem finalLength_read (e : Engine) (a : Fin 64) :
    (finalLength e).buf.read a = if 56 ≤ a.val then byteOfCount e.bitcount (a.val - 56) else e.buf.read a := by
  rw [finalLength_buf, read_memWrite]
  by_cases h : 56 ≤ a.val
  · have h2 : a.val < 56 + 8 := by omega
    simp only [lengthOffset, h, h2, and_self, if_true, byteOfCount]
    congr 1
    omega
  · simp [lengthOffset, h]

theorem finalSpill_of_room (e : Engine) (h : e.fill.val ≤ 55) : finalSpill e = e := by
  unfold finalSpill; rw [if_neg]; rw [spills_iff]; omega

theorem finalSpill_of_full (e : Engine) (h : 55 < e.fill.val) : finalSpill e = finalSpillBlock e := by
  unfold finalSpill; rw [if_pos]; rw [spills_iff]; exact h

/-! ### The commands -/

theorem exec_init (s : State) : exec .init s = .next (s.answered (accept constructed)) := rfl

theorem exec_reserved (s : State) : exec .reserved s = .next (s.answered (reject .errIllegal s.toEngine)) := rfl

theorem exec_feed_spent (d : Byte) (s : State) (h : s.phase = .spent) :
    exec (.feed d) s = .next (s.answered (reject .errSpent s.toEngine)) := by
  simp [exec, execFeed, complete, (isSpent_iff s.toEngine).mpr h]

theorem exec_feed_active (d : Byte) (s : State) (h : s.phase = .active) :
    exec (.feed d) s = .next (s.answered (accept (absorb d s.toEngine))) := by
  simp [exec, execFeed, complete, (not_isSpent_iff s.toEngine).mpr h]

theorem exec_final_spent (s : State) (h : s.phase = .spent) :
    exec .final s = .next (s.answered (reject .errSpent s.toEngine)) := by
  simp [exec, execFinal, complete, (isSpent_iff s.toEngine).mpr h]

theorem exec_final_active (s : State) (h : s.phase = .active) :
    exec .final s = .next (s.answered (accept (finalize s.toEngine))) := by
  simp [exec, execFinal, complete, (not_isSpent_iff s.toEngine).mpr h]

/-- Every command is answered, and only the engine decides how. -/
theorem exec_answers (i : Instr) : ∃ f : Engine → Answer, ∀ s : State, exec i s = .next (s.answered (f s.toEngine)) := by
  cases i with
  | init => exact ⟨fun _ => accept constructed, fun _ => rfl⟩
  | reserved => exact ⟨reject .errIllegal, fun _ => rfl⟩
  | feed d => exact ⟨fun e => if isSpent e then reject .errSpent e else accept (absorb d e), fun _ => rfl⟩
  | final => exact ⟨fun e => if isSpent e then reject .errSpent e else accept (finalize e), fun _ => rfl⟩

/-- Everything a command can do: be rejected, with the engine as it was, or have its own effect. -/
theorem exec_cases (i : Instr) (s t : State) (h : exec i s = .next t) :
    (i = .init ∧ t = s.answered (accept constructed)) ∨
    (i = .reserved ∧ t = s.answered (reject .errIllegal s.toEngine)) ∨
    ((∃ d, i = .feed d) ∧ s.phase = .spent ∧ t = s.answered (reject .errSpent s.toEngine)) ∨
    (i = .final ∧ s.phase = .spent ∧ t = s.answered (reject .errSpent s.toEngine)) ∨
    (∃ d, i = .feed d ∧ s.phase = .active ∧ t = s.answered (accept (absorb d s.toEngine))) ∨
    (i = .final ∧ s.phase = .active ∧ t = s.answered (accept (finalize s.toEngine))) := by
  cases i with
  | init => cases h; simp
  | reserved => cases h; simp
  | feed d =>
    rcases phase_cases s.toEngine with hp | hp
    · rw [exec_feed_active d s hp] at h; cases h; simp [hp]
    · rw [exec_feed_spent d s hp] at h; cases h; simp [hp]
  | final =>
    rcases phase_cases s.toEngine with hp | hp
    · rw [exec_final_active s hp] at h; cases h; simp [hp]
    · rw [exec_final_spent s hp] at h; cases h; simp [hp]

/-! ### One step -/

theorem step_idle (s : State) (h : s.port = none) : step s = .next s := by
  unfold step takePort; rw [h]

theorem step_event (s : State) (event : HostEvent) (h : s.port = some event) :
    step s = transition event { s with port := none } := by
  unfold step takePort; rw [h]

theorem step_reset (s : State) (h : s.port = some .reset) : step s = .next State.reset := step_event s .reset h

theorem step_command (s : State) (w : CmdWord) (h : s.port = some (.command w)) :
    step s = exec (decodeWord w) { s with port := none } := step_event s (.command w) h

theorem step_present (s : State) (w : CmdWord) : step (present w s) = exec (decodeWord w) { s with port := none } := rfl

/-- Everything one step can do: stay idle, reset, or run the decoded command on the state with the word taken. -/
theorem step_cases (s t : State) (h : step s = .next t) :
    (s.port = none ∧ t = s) ∨
    (s.port = some .reset ∧ t = State.reset) ∨
    (∃ w, s.port = some (.command w) ∧ exec (decodeWord w) { s with port := none } = .next t) := by
  rcases hp : s.port with _ | event
  · rw [step_idle s hp] at h; cases h; simp
  · cases event with
    | reset => rw [step_reset s hp] at h; cases h; simp
    | command w => rw [step_command s w hp] at h; exact Or.inr (Or.inr ⟨w, rfl, h⟩)

end Sys2Proof.Machine
end

