-- ==== Sys2Proof/Laws/PerInstr.lean ====
section
/-! SUPPORT. Laws of the commands as syntax, one lemma per constructor. -/

/-- The word the encoder emits spells the command's own row of the opcode map and no other (30_encoding.md R82). -/
def Sys2Proof.Laws.OwnRow.Statement (i : Sys2Proof.Instr) : Prop :=
  (Sys2Proof.opcodeTable.filter fun r => r.spells (Sys2Proof.encode i)).map Sys2Proof.OpcodeRow.mnemonic = [i.mnemonic]

theorem Sys2Proof.Laws.OwnRow.init : Sys2Proof.Laws.OwnRow.Statement .init := by
  unfold Sys2Proof.Laws.OwnRow.Statement; decide

theorem Sys2Proof.Laws.OwnRow.feed (data : Sys2Proof.Byte) : Sys2Proof.Laws.OwnRow.Statement (.feed data) := by
  unfold Sys2Proof.Laws.OwnRow.Statement
  revert data
  decide +kernel

theorem Sys2Proof.Laws.OwnRow.final : Sys2Proof.Laws.OwnRow.Statement .final := by
  unfold Sys2Proof.Laws.OwnRow.Statement; decide

theorem Sys2Proof.Laws.OwnRow.reserved : Sys2Proof.Laws.OwnRow.Statement .reserved := by
  unfold Sys2Proof.Laws.OwnRow.Statement; decide
end

