-- ==== Sys2Proof/Laws/Run.lean ====
section
/-! SUPPORT. Runs over a stream, one event at a time. -/

namespace Sys2Proof.Machine

theorem runStream_nil (s : State) : runStream [] s = .next s := rfl

/-- A run whose first event steps to `t` goes on from `t`. -/
theorem runStream_cons (event : HostEvent) (later : List HostEvent) (s t : State) (h : step (drive event s) = .next t) :
    runStream (event :: later) s = runStream later t := by
  rw [runStream, h]

end Sys2Proof.Machine
end

