-- ==== Sys2Proof/Tests/Slice0.lean ====
section
/-! SUPPORT. The model's own tests: expected values are the spec's (95_test_vectors.md, 96_test_vectors_engine.md), and one
witness for the hypotheses of every statement of Certificates/Slice0/Obligations.lean that has some. -/

namespace Sys2Proof.Tests

open Sys2Proof.Machine Sys2Proof.Safety

/-! ### Helpers -/

/-- The buffer that holds the given bytes from offset 0 on, the rest zero. -/
def bufferOf (m : List Byte) : Memory :=
  (m.zipIdx.map fun p => (p.2, p.1)).filter fun c => c.2 != Memory.unlisted

/-- An engine in phase ACTIVE that has been fed the given bytes, fewer than 64. -/
def fed (m : List Byte) (h : m.length < 64 := by decide) : State :=
  { State.reset with buf := bufferOf m, fill := ⟨m.length, h⟩ }

/-- The engine after FINAL of the empty message, its `H` as 95_test_vectors.md V1 gives it. -/
def spentEngine : State :=
  { State.reset with
    H := #v[0xe3b0c442, 0x98fc1c14, 0x9afbf4c8, 0x996fb924, 0x27ae41e4, 0x649b934c, 0xa495991b, 0x7852b855]
    buf := [(0, 0x80)], phase := .spent }

/-- Whether an outcome is a next state with a property. -/
def answers (o : Host.Outcome State Fault Refusal) (p : State → Bool) : Bool :=
  match o with
  | .next t => p t
  | .fault _ => false
  | .refused _ => false

/-- 55 bytes and 63 bytes `'a'` (96_test_vectors_engine.md V31). -/
def as55 : List Byte := List.replicate 55 0x61
def as63 : List Byte := List.replicate 63 0x61

/-- The padded block of "abc" (40_compress_schedule.md R102). -/
def abcBlock : Block :=
  ⟨(([0x61, 0x62, 0x63, 0x80] : List Byte) ++ List.replicate 59 0x00 ++ [0x18]).toArray, by decide⟩

/-- The block `00 01 .. 3f` (95_test_vectors.md V26). -/
def risingBlock : Block := Vector.ofFn fun j => BitVec.ofNat 8 j.val

/-! ### Well-formedness: each check refuses an ill-formed term -/

theorem test_wf_refuses_reserved : Instr.wellFormed .reserved = false := by decide
theorem test_wf_refuses_byte_256 : AsmLine.wellFormed (.feed (.number 256)) = false := by decide
theorem test_wf_refuses_control_character : AsmLine.wellFormed (.feed (.char (Char.ofNat 10))) = false := by decide
theorem test_wf_refuses_non_ascii_text : AsmLine.wellFormed (.feeds ['a', 'σ']) = false := by decide
theorem test_wf_refuses_tab_in_text : AsmLine.wellFormed (.feeds ['a', '\t']) = false := by decide
theorem test_wf_refuses_feedx_256 : AsmLine.wellFormed (.feedx [0x41, 256]) = false := by decide
theorem test_wf_refuses_feedx_empty : AsmLine.wellFormed (.feedx []) = false := by decide
theorem test_wf_refuses_feedn_256 : AsmLine.wellFormed (.feedn 3 (.number 256)) = false := by decide
theorem test_wf_refuses_word_of_11_bits : AsmLine.wellFormed (.cmd 1024) = false := by decide
theorem test_wf_refuses_unordered_buffer : Memory.wf [(5, 1), (3, 1)] = false := by decide
theorem test_wf_refuses_listed_zero : Memory.wf [(3, 0)] = false := by decide
theorem test_wf_refuses_offset_64 : Memory.wf [(64, 1)] = false := by decide

/-! ### Decoding (96_test_vectors_engine.md V40), the words written out bit by bit from 30_encoding.md R81, R82 -/

theorem test_decode_init_data_ignored : decodeWord 0b0001011010 = .init := by decide
theorem test_decode_feed_61 : decodeWord 0b0101100001 = .feed 0x61 := by decide
theorem test_decode_feed_ff : decodeWord 0b0111111111 = .feed 0xff := by decide
theorem test_decode_final_data_ignored : decodeWord 0b1010000000 = .final := by decide
theorem test_decode_reserved : decodeWord 0b1101100001 = .reserved := by decide
theorem test_decode_eleven_bits : decodeNat 0x400 = .error .notTenBits := by decide
theorem test_encode_feed : encode (.feed 0x61) = 0x161 := by decide

/-! ### Primitives and word functions (95_test_vectors.md V10, V12, V13) -/

theorem test_rotr : rotr 0x12345678 36 = 0x81234567 ∧ rotr 0x00000001 1 = 0x80000000 ∧ rotr 0x12345678 32 = 0x12345678 := by
  decide
theorem test_shr_is_logical : shr 0x80000000 3 = 0x10000000 := by decide
theorem test_sigma0 : sigma0 0x61626380 = 0x940e90ef := by decide
theorem test_sigma1 : sigma1 0xdeadbeef = 0x689dbfec := by decide
theorem test_bigSigma0 : bigSigma0 0xdeadbeef = 0xb62e25ac := by decide
theorem test_bigSigma1 : bigSigma1 0xdeadbeef = 0x345e14a3 := by decide
theorem test_ch : ch 0xdeadbeef 0xcafebabe 0x0badf00d = 0xcbacfaae := by decide
theorem test_maj : maj 0xdeadbeef 0xcafebabe 0x0badf00d = 0xcaadbaaf := by decide

/-! ### The Compression Core (95_test_vectors.md V20, V21, V23, V26) -/

theorem test_schedule_abc : (schedule abcBlock)[17] = 0x000f0000 ∧ (schedule abcBlock)[63] = 0x12b1edeb := by
  decide +kernel
theorem test_round0_abc :
    hashRound (wvInit Config.IV) Config.K[0] 0x61626380 =
      ⟨0x5d6aebcd, 0x6a09e667, 0xbb67ae85, 0x3c6ef372, 0xfa2a4622, 0x510e527f, 0x9b05688c, 0x1f83d9ab⟩ := by
  decide
theorem test_compress_rising_block :
    compress Config.IV risingBlock =
      #v[0xfc99a2df, 0x88f42a7a, 0x7bb9d180, 0x33cdc6a2, 0x0256755f, 0x9d5b9a50, 0x44a9cc31, 0x5abe84a7] := by
  decide +kernel
theorem test_compress_zero_is_not_zero :
    compress (Vector.replicate 8 0) (Vector.replicate 64 0) =
      #v[0x7ca51614, 0x425c3ba8, 0xce54dd2f, 0xc2020ae7, 0xb6e574d1, 0x98136d0f, 0xae7e26cc, 0xbf0be7a6] := by
  decide +kernel
theorem test_compress_port_abc :
    compressPort 0x6a09e667bb67ae853c6ef372a54ff53a510e527f9b05688c1f83d9ab5be0cd19
      (0x61626380 <<< 480 ||| 0x18) = 0xba7816bf8f01cfea414140de5dae2223b00361a396177a9cb410ff61f20015ad := by
  decide +kernel

/-! ### The commands, one step each -/

/-- 95_test_vectors.md P2, command 5: INIT in phase SPENT. -/
theorem test_init_ends_the_digest :
    answers (step (spentEngine.withFetchWord 16 0x0ff)) (fun t =>
      t.H == Config.IV && t.phase == .active && t.digest == none && t.resp == some .ok) = true := by
  decide +kernel

/-- 96_test_vectors_engine.md V30, n = 64: the FEED that drains. -/
theorem test_feed_drains :
    answers (step ((fed as63).withFetchWord 16 0x161)) (fun t =>
      t.fill == 0 && t.bitcount == 512 &&
      t.H == #v[0xdf5bb81c, 0xe81e0626, 0xfb45a894, 0x4fd40f31, 0xb25e6816, 0xd6d499c1, 0xab904929, 0x00635e66]) =
      true := by
  decide +kernel

/-- 96_test_vectors_engine.md V43: the bit counter wraps. -/
theorem test_feed_wraps_bitcount :
    answers (exec (.feed 0x00) { fed as63 with bitcount := 0xfffffffffffffe00 }) (fun t =>
      t.bitcount == 0 && t.resp == some .ok) = true := by
  decide +kernel

/-- 95_test_vectors.md V2: FINAL after "abc", one block; the digest on the port. -/
theorem test_final_abc :
    answers (step ((fed [0x61, 0x62, 0x63]).withFetchWord 16 0x200)) (fun t =>
      t.digestPort == some 0xba7816bf8f01cfea414140de5dae2223b00361a396177a9cb410ff61f20015ad && t.bitcount == 24) =
      true := by
  decide +kernel

/-- 96_test_vectors_engine.md V31, n = 63: FINAL in two blocks. -/
theorem test_final_two_blocks :
    answers (exec .final (fed as63)) (fun t =>
      t.H == #v[0x7d3e74a0, 0x5d7db15b, 0xce4ad9ec, 0x0658ea98, 0xe3f06eee, 0xcf16b4c6, 0xfff2da45, 0x7ddc2f34] &&
      t.buf == [(62, 0x01), (63, 0xf8)]) = true := by
  decide +kernel

/-- 96_test_vectors_engine.md V41: ERR_ILLEGAL wins over ERR_SPENT, and nothing changes. -/
theorem test_reserved_in_spent :
    answers (step (spentEngine.withFetchWord 16 0x3ff)) (fun t =>
      decide (t = { spentEngine with resp := some .errIllegal })) = true := by
  decide +kernel

/-! ### The assembler text (30_encoding.md R89, R90) -/

theorem test_assemble_text :
    assembleText ["INIT                ; 0x000".toList, "FEED 'a'".toList, "FEED 0x80".toList, "FEEDS \"b;\"".toList,
      "FEEDX 00 ff".toList, "FEEDN 2, 7".toList, ".cmd 0x3ff".toList, "FINAL".toList] =
      some [0x000, 0x161, 0x180, 0x162, 0x13b, 0x100, 0x1ff, 0x107, 0x107, 0x3ff, 0x200] := by
  decide +kernel
theorem test_assemble_refuses_256 : assembleLine "FEED 256".toList = none := by decide +kernel

/-! ### Witnesses: the hypotheses of each statement can be met -/

theorem witness_InitAnswersTheConstructedState : opField 0x000 = 0b00 ∧ opField 0x0ff = 0b00 := by decide

theorem witness_InitAgreesWithResetAndIsIdempotent :
    ∃ (s u : State) (w : CmdWord), opField w = 0b00 ∧ s.phase ≠ u.phase := ⟨spentEngine, fed as63, 0x0ff, by decide⟩

/-- Each clause of the FEED statement: spent; fill 0 and 62, the ends of the range below 63; fill 63 with the block. -/
theorem witness_FeedStoresAndDrains :
    spentEngine.phase = .spent ∧
    (State.reset.phase = .active ∧ State.reset.fill.val < 63) ∧
    ((fed (List.replicate 62 0x61)).phase = .active ∧ (fed (List.replicate 62 0x61)).fill.val < 63) ∧
    (fed as63).phase = .active ∧ (fed as63).fill.val = 63 ∧
    ∃ M : Block, ∀ j : Fin 64, M[j] = if j = (fed as63).fill then 0x61 else (fed as63).buf.read j := by
  refine ⟨rfl, ⟨rfl, by decide⟩, ⟨rfl, by decide⟩, rfl, by decide, ?_⟩
  exact ⟨Vector.ofFn fun j => if j = (fed as63).fill then 0x61 else (fed as63).buf.read j, fun j => by simp⟩

theorem absorbing_reset : Absorbing [] State.reset := ⟨rfl, rfl, fun j h => absurd h (by simp [State.reset]), rfl, rfl⟩

/-- A message that fills the buffer but for one byte. -/
theorem absorbing_as63 : Absorbing as63 (fed as63) :=
  ⟨rfl, by decide, by decide +kernel, by decide, rfl⟩

theorem witness_FeedExtendsTheMessage : ∃ m s, m.length = 63 ∧ Absorbing m s := ⟨as63, fed as63, by decide, absorbing_as63⟩

/-- Each clause of the FINAL statement: spent; fill 55 with its block; fill 56 with its two blocks. -/
theorem witness_FinalPadsAndCompresses :
    opField 0x200 = 0b10 ∧ opField 0x2ff = 0b10 ∧ spentEngine.phase = .spent ∧
    (fed as55).phase = .active ∧ (fed as55).fill.val ≤ 55 ∧
    (∃ M : Block, ∀ j : Fin 64, M[j] =
      if j.val < (fed as55).fill.val then (fed as55).buf.read j
      else if j = (fed as55).fill then 0x80
      else if j.val < 56 then 0x00
      else (440 : BitCount).extractLsb' (8 * (63 - j.val)) 8) ∧
    ∃ s : State, s.phase = .active ∧ s.fill.val = 56 ∧
      (∃ M : Block, ∀ j : Fin 64, M[j] =
        if j.val < s.fill.val then s.buf.read j else if j = s.fill then 0x80 else 0x00) ∧
      ∃ N : Block, ∀ j : Fin 64, N[j] =
        if j.val < 56 then 0x00 else (448 : BitCount).extractLsb' (8 * (63 - j.val)) 8 := by
  refine ⟨by decide, by decide, rfl, rfl, by decide, ⟨Vector.ofFn fun j => _, fun j => by simp; rfl⟩,
    fed (List.replicate 56 0x61), rfl, by decide, ⟨Vector.ofFn fun j => _, fun j => by simp; rfl⟩,
    ⟨Vector.ofFn fun j => _, fun j => by simp; rfl⟩⟩

/-- FINAL with fill 55 and 56, and the machine at P_MARK with either latched fill and at the neighbouring points. -/
theorem witness_PaddingMachineEqualsFinal :
    (padStep (padStart (fed as55).toEngine)).point = .pMark ∧ (padStep (padStart (fed as55).toEngine)).n.val ≤ 55 ∧
    (padStep (padStart (fed (List.replicate 56 0x61)).toEngine)).n.val = 56 ∧
    (padStart State.reset.toEngine).point = (padStart (fed as63).toEngine).point ∧
    (padStart State.reset.toEngine).point ≠ .pMark ∧ (padStart State.reset.toEngine).point ≠ .ended ∧
    (fed as55).phase = .active ∧ spills (fed as55).fill = false ∧
    (fed (List.replicate 56 0x61)).phase = .active ∧ spills (fed (List.replicate 56 0x61)).fill = true := by decide

theorem witness_FinalGivesThePaddedDigest : ∃ m s, m.length = 63 ∧ Absorbing m s := ⟨as63, fed as63, by decide, absorbing_as63⟩

theorem witness_ReservedWordIsRejected : opField 0x300 = 0b11 ∧ opField 0x3ff = 0b11 := by decide

theorem witness_RejectedStreamLeavesTheEngine :
    ∃ (ws : List CmdWord) (s : State), ws.length = 3 ∧
      ∀ w ∈ ws, opField w = 0b11 ∨ (s.phase = .spent ∧ opField w ≠ 0b00) :=
  ⟨[0x161, 0x200, 0x300], spentEngine, rfl, by decide⟩

theorem witness_StepRunsTheDecodedCommand :
    ∃ s u : State, s.port = some (.command 0x161) ∧ u.port = none := ⟨present 0x161 State.reset, State.reset, rfl, rfl⟩

/-- The same engine behind different ports, and a stream of two events after which a third is to come. -/
theorem witness_StreamIsAParameterOfTheEngine :
    (∃ s u : State, SameEngine s u ∧ s.resp ≠ u.resp ∧ s.port ≠ u.port) ∧
    ∃ (events : List HostEvent) (s t : State), events.length = 2 ∧ s ≠ t ∧ runStream events s = .next t :=
  ⟨⟨spentEngine, { spentEngine with resp := some .ok, port := some .reset }, rfl, by decide, by decide⟩,
    [.reset, .command 0x161], spentEngine, _, rfl, by decide, rfl⟩

theorem witness_DecodeFollowsTheOpcodeMap :
    (0x0ff : CmdWord) &&& 0x300 = 0x000 ∧ (0x100 : CmdWord) &&& 0x300 = 0x100 ∧
    (0x2ff : CmdWord) &&& 0x300 = 0x200 ∧ (0x3ff : CmdWord) &&& 0x300 = 0x300 := by decide

theorem witness_EncodeThenDecodeThroughThePort :
    opField 0x1ff = 0b01 ∧ dataField 0x200 = 0x00 ∧ 1024 ≤ 1024 := by decide

/-- The eight-byte field at the end of the buffer: its last byte, the byte just below it, and a byte just above a field. -/
theorem witness_BufferAccessIsBigEndian :
    56 + 8 ≤ 64 ∧ 7 < 8 ∧ (55 : Fin 64).val < 56 ∧ 0 + 1 ≤ 64 ∧ 0 + 1 ≤ (1 : Fin 64).val := by decide

theorem witness_ScheduleLoadReadsTheBuffer : ∃ t, t < 16 ∧ 4 * t + 4 = 64 := ⟨15, by decide⟩

theorem witness_StepKeepsTheCanonicalBuffer :
    ∃ s t : State, s.buf.wf = true ∧ s.buf ≠ [] ∧ step s = .next t :=
  ⟨spentEngine, spentEngine, by decide, by decide, rfl⟩

/-- Two engines that differ in a stale byte. -/
theorem witness_StaleStateReachesNothing : ∃ s u : State, LiveEq s u ∧ s.phase = .active ∧ s ≠ u := by
  refine ⟨State.reset, { State.reset with buf := [(9, 0x61)] }, ⟨rfl, rfl, rfl, rfl, fun _ => rfl, fun _ => rfl, ?_⟩, rfl, ?_⟩
  · intro _ j h; exact absurd h (by simp [State.reset])
  · intro h; exact absurd (congrArg (fun t : State => t.buf) h) (by decide)

theorem witness_RotateAndShiftBitByBit : ∃ n i : Nat, i < 32 ∧ 32 ≤ i + n := ⟨25, 31, by decide⟩

theorem witness_SigmasBitByBit : ∃ i : Nat, i < 32 ∧ ¬ i + 3 < 32 := ⟨31, by decide⟩

theorem witness_ScheduleFollowsTheRecurrence : 15 < 16 ∧ 16 ≤ 16 ∧ 16 ≤ 63 ∧ 63 < 64 := by decide

theorem witness_CompressPortPacksBigEndian (stateIn : BitVec 256) (block : BitVec 512) :
    ∃ (S : HashState) (M : Block), (∀ i : Fin 8, S[i] = stateIn.extractLsb' (224 - 32 * i.val) 32) ∧
      ∀ j : Fin 64, M[j] = block.extractLsb' (504 - 8 * j.val) 8 :=
  ⟨unpackState stateIn, unpackBlock block, fun i => by simp [unpackState], fun j => by simp [unpackBlock]⟩

theorem witness_DigestIsTheSerializedState : State.reset.phase = .active ∧ spentEngine.phase = .spent := by decide

theorem witness_WidePortsPackBigEndian : spentEngine.phase = .spent := rfl

/-- A digest that stands, one that INIT ends, and one that reset ends. -/
theorem witness_DigestStandsUntilInitOrReset :
    spentEngine.phase = .spent ∧ step spentEngine = .next spentEngine ∧
    (∃ t, step (present 0x000 spentEngine) = .next t) ∧
    ∃ t, step (drive .reset spentEngine) = .next t := by
  refine ⟨rfl, rfl, ⟨_, rfl⟩, ⟨_, rfl⟩⟩

/-- A step into SPENT and a step back to ACTIVE. -/
theorem witness_OnlyFinalSpendsOnlyInitRevives :
    (∃ t, step (present 0x200 State.reset) = .next t ∧ State.reset.phase = .active ∧ t.phase = .spent) ∧
    ∃ t, step (present 0x000 spentEngine) = .next t ∧ spentEngine.phase = .spent ∧ t.phase = .active := by
  refine ⟨⟨_, rfl, rfl, rfl⟩, ⟨_, rfl, rfl, rfl⟩⟩

theorem witness_HashStateHasFourWriters :
    ∃ t, step (present 0x161 (fed as63)) = .next t := ⟨_, rfl⟩

theorem witness_StepKeepsTheMessageInvariant :
    ∃ s t : State, Inv s ∧ s.fill.val = 63 ∧ step s = .next t := by
  refine ⟨fed as63, fed as63, ⟨by decide +kernel, as63, Or.inl absorbing_as63⟩, by decide, rfl⟩

/-- 56 bytes, the least message in two padding blocks, from an engine in phase SPENT. -/
theorem witness_StreamComputesTheReferenceDigest :
    ∃ (m : List Byte) (s : State), m.length = 56 ∧ s.phase = .spent ∧ Supported m :=
  ⟨List.replicate 56 0x61, spentEngine, by decide, rfl, by simp [Supported]⟩

end Sys2Proof.Tests
end

section
/-! The bits of the rotation and the shift (00_scope.md R11, R12), which every Σ and σ of the Compression Core is made of. -/

namespace Sys2Proof.Machine

/-- The model's rotation is the library's: its guard only keeps the left shift below 32 (R11). -/
theorem rotr_eq_rotateRight (x : Word) (n : Nat) : rotr x n = x.rotateRight n := by
  rw [BitVec.rotateRight_def, rotr]
  split
  · next hn => simp [hn]
  · rfl

/-- The bits below `32 - n % 32` come from the right shift, the others wrap around from the left shift. -/
@[simp] theorem getLsbD_rotr (x : Word) (n : Nat) {i : Nat} (hi : i < 32) :
    (rotr x n).getLsbD i = x.getLsbD ((i + n) % 32) := by
  rw [rotr_eq_rotateRight, BitVec.getLsbD_rotateRight]
  by_cases hlow : i < 32 - n % 32
  · have hsource : n % 32 + i = (i + n) % 32 := by omega
    simp [hlow, hsource]
  · have hsource : i - (32 - n % 32) = (i + n) % 32 := by omega
    simp [hlow, hi, hsource]

@[simp] theorem getLsbD_shr (x : Word) (n i : Nat) :
    (shr x n).getLsbD i = (decide (i + n < 32) && x.getLsbD (i + n)) := by
  rw [shr, BitVec.getLsbD_ushiftRight, Nat.add_comm n i]
  by_cases h : i + n < 32
  · simp [h]
  · simp [h, BitVec.getLsbD_of_ge x (i + n) (Nat.le_of_not_lt h)]

/-- Settles O25: each bit of the rotation and of the shift, by the two bit laws above. -/
theorem rotateAndShiftBitByBit : Obligations.RotateAndShiftBitByBit := by
  intro x n i hi
  exact ⟨getLsbD_rotr x n hi, getLsbD_shr x n i⟩

end Sys2Proof.Machine
end

section
/-! What one step does to the engine, and the fields that FEED and FINAL leave. -/

namespace Sys2Proof.Machine

/-! ### `absorb` -/

@[simp] theorem absorb_phase (d : Byte) (e : Engine) : (absorb d e).phase = e.phase := by simp [absorb]

@[simp] theorem absorb_buf (d : Byte) (e : Engine) : (absorb d e).buf = (storeByte d e).buf := by
  rw [absorb, advance_buf]

/-- FEED below 63 stores the byte and counts it. -/
theorem absorb_of_room (d : Byte) (e : Engine) (h : e.fill.val < 63) :
    absorb d e = { storeByte d e with fill := ⟨e.fill.val + 1, by omega⟩ } :=
  advance_room (storeByte d e) h

/-- FEED at 63 stores the byte and drains. -/
theorem absorb_of_full (d : Byte) (e : Engine) (h : e.fill.val = 63) : absorb d e = drain (storeByte d e) :=
  advance_full (storeByte d e) h

/-! ### `finalize` -/

@[simp] theorem finalize_phase (e : Engine) : (finalize e).phase = .spent := by simp [finalize]

@[simp] theorem finalize_fill (e : Engine) : (finalize e).fill = e.fill := by simp [finalize]

@[simp] theorem finalize_bitcount (e : Engine) : (finalize e).bitcount = e.bitcount + tailBits e := by
  simp [finalize, add64]

theorem finalize_buf (e : Engine) :
    (finalize e).buf = (finalLength (finalSpill (finalMark (finalCount e)))).buf := by
  rw [finalize, finalDone_buf, finalLast_buf]

/-- The last compression runs over the buffer that FINAL leaves (43_engine_finalize.md R175). -/
theorem finalize_H (e : Engine) :
    (finalize e).H = compress (finalSpill (finalMark (finalCount e))).H (readBlock (finalize e).buf) := by
  rw [finalize_buf, finalize, finalDone_H, finalLast_H, finalLength_H]

/-- With `fill <= 55` nothing is compressed before the length field is written (43_engine_finalize.md R173). -/
theorem finalSpill_finalMark_of_room (e : Engine) (h : e.fill.val ≤ 55) :
    finalSpill (finalMark (finalCount e)) = finalMark (finalCount e) :=
  finalSpill_of_room (finalMark (finalCount e)) h

/-- With `fill > 55` the marked block is compressed first (43_engine_finalize.md R173). -/
theorem finalSpill_finalMark_of_full (e : Engine) (h : 55 < e.fill.val) :
    finalSpill (finalMark (finalCount e)) = finalSpillBlock (finalMark (finalCount e)) :=
  finalSpill_of_full (finalMark (finalCount e)) h

/-! ### The buffer stays canonical -/

theorem wf_absorb (d : Byte) (e : Engine) (h : e.buf.wf = true) : (absorb d e).buf.wf = true := by
  rw [absorb_buf, storeByte_buf]
  exact wf_memWrite _ _ _ _ _ h

theorem wf_finalMark (e : Engine) (h : e.buf.wf = true) : (finalMark e).buf.wf = true := by
  rw [finalMark_buf]
  exact wf_zeroFill _ _ (wf_memWrite _ _ _ _ _ h)

theorem wf_finalSpill (e : Engine) (h : e.buf.wf = true) : (finalSpill e).buf.wf = true := by
  unfold finalSpill
  split
  · exact Memory.wf_cleared
  · exact h

theorem wf_finalize (e : Engine) (h : e.buf.wf = true) : (finalize e).buf.wf = true := by
  rw [finalize_buf, finalLength_buf]
  exact wf_memWrite _ _ _ _ _ (wf_finalSpill _ (wf_finalMark (finalCount e) h))

/-! ### One step, as the engine sees it -/

/-- Everything one step can do to the engine: leave it (idle or a rejected command), construct it (reset, INIT), absorb a
byte, or finalize it. -/
theorem step_engine_cases (s t : State) (h : step s = .next t) :
    t.toEngine = s.toEngine ∨
    (t.toEngine = constructed ∧
      (s.port = some .reset ∨ ∃ w, s.port = some (.command w) ∧ decodeWord w = .init)) ∨
    (s.phase = .active ∧
      ∃ w d, s.port = some (.command w) ∧ decodeWord w = .feed d ∧ t.toEngine = absorb d s.toEngine) ∨
    (s.phase = .active ∧ t.toEngine = finalize s.toEngine ∧
      ∃ w, s.port = some (.command w) ∧ decodeWord w = .final) := by
  rcases step_cases s t h with ⟨-, rfl⟩ | ⟨hport, rfl⟩ | ⟨w, hport, hexec⟩
  · exact .inl rfl
  · exact .inr (.inl ⟨reset_toEngine, .inl hport⟩)
  · rcases exec_cases _ _ _ hexec with
      ⟨hw, rfl⟩ | ⟨-, rfl⟩ | ⟨-, -, rfl⟩ | ⟨-, -, rfl⟩ | ⟨d, hw, hp, rfl⟩ | ⟨hw, hp, rfl⟩
    · exact .inr (.inl ⟨rfl, .inr ⟨w, hport, hw⟩⟩)
    · exact .inl rfl
    · exact .inl rfl
    · exact .inl rfl
    · exact .inr (.inr (.inl ⟨hp, w, d, hport, hw, rfl⟩))
    · exact .inr (.inr (.inr ⟨hp, rfl, w, hport, hw⟩))

/-- Every step keeps the canonical form of the buffer (log 2). -/
theorem step_keeps_wf (s t : State) (hwf : s.buf.wf = true) (h : step s = .next t) : t.buf.wf = true := by
  rcases step_engine_cases s t h with he | ⟨he, -⟩ | ⟨-, w, d, -, -, he⟩ | ⟨-, he, -⟩ <;> rw [he]
  · exact hwf
  · exact Memory.wf_cleared
  · exact wf_absorb d _ hwf
  · exact wf_finalize _ hwf

end Sys2Proof.Machine
end

section
/-! The bytes and blocks of a message and of its padding (10_state.md R35, 43_engine_finalize.md R184). -/

namespace Sys2Proof.Safety

open Sys2Proof.Machine

/-! ### Blocks and the states after them -/

@[simp] theorem messageBlock_getElem (m : List Byte) (k j : Nat) (hj : j < 64) :
    (messageBlock m k)[j] = m.getD (64 * k + j) 0x00 := by
  simp [messageBlock]

/-- A buffer that reads as block `k` of a message is that block. -/
theorem readBlock_eq_messageBlock (b : Memory) (m : List Byte) (k : Nat)
    (h : ∀ j : Fin 64, b.read j = m.getD (64 * k + j.val) 0x00) : readBlock b = messageBlock m k := by
  refine (eq_readBlock b _ fun j => ?_).symm
  rw [h j]
  exact messageBlock_getElem m k j.val j.isLt

theorem messageBlock_congr (m n : List Byte) (k : Nat)
    (h : ∀ i, i < 64 * (k + 1) → m.getD i 0x00 = n.getD i 0x00) : messageBlock m k = messageBlock n k := by
  apply Vector.ext
  intro j hj
  rw [messageBlock_getElem, messageBlock_getElem, h _ (by omega)]

/-- `S_k` depends on the first `64k` bytes alone. -/
theorem stateAfter_congr (m n : List Byte) (k : Nat)
    (h : ∀ i, i < 64 * k → m.getD i 0x00 = n.getD i 0x00) : stateAfter m k = stateAfter n k := by
  induction k with
  | zero => rfl
  | succ k ih =>
    rw [stateAfter, stateAfter, ih fun i hi => h i (by omega), messageBlock_congr m n k h]

/-- Later bytes leave the states of the blocks already complete. -/
theorem stateAfter_append (m n : List Byte) (k : Nat) (h : 64 * k ≤ m.length) :
    stateAfter (m ++ n) k = stateAfter m k :=
  stateAfter_congr _ _ k fun i hi => List.getD_append m n 0x00 i (by omega)

/-- Byte `i` of a message one byte longer: an old byte, then the new one, then the default of a read past the end. -/
theorem getD_append_singleton (m : List Byte) (d : Byte) (i : Nat) :
    (m ++ [d]).getD i 0x00 = if i < m.length then m.getD i 0x00 else if i = m.length then d else 0x00 := by
  by_cases hlt : i < m.length
  · rw [if_pos hlt, List.getD_append _ _ _ _ hlt]
  · rw [if_neg hlt, List.getD_append_right _ _ _ _ (by omega)]
    by_cases heq : i = m.length
    · simp [heq]
    · rw [if_neg heq, List.getD_eq_default _ _ (by simp; omega)]

/-! ### The padded message -/

theorem bytes64_getD (v : BitCount) (k : Nat) (h : k < 8) : (bytes64 v).getD k 0x00 = byteOfCount v k := by
  simp [bytes64, h]

theorem pad_length (m : List Byte) : (pad m).length = m.length + padZeros m.length + 9 := by
  simp [pad, bytes64]; omega

/-- The padding completes the block of the tail, or the one after it (43_engine_finalize.md R184). -/
theorem padBlocks_eq (m : List Byte) :
    padBlocks m = if m.length % 64 ≤ 55 then m.length / 64 + 1 else m.length / 64 + 2 := by
  rw [padBlocks, pad_length, padZeros]
  split <;> omega

theorem padBlocks_of_room (m : List Byte) (h : m.length % 64 ≤ 55) : padBlocks m = m.length / 64 + 1 := by
  rw [padBlocks_eq, if_pos h]

theorem padBlocks_of_full (m : List Byte) (h : 55 < m.length % 64) : padBlocks m = m.length / 64 + 2 := by
  rw [padBlocks_eq, if_neg (by omega)]

/-- The length field is the end of the last block. -/
theorem length_add_padZeros (m : List Byte) : m.length + 1 + padZeros m.length = 64 * padBlocks m - 8 := by
  rw [padBlocks_eq, padZeros]
  split <;> omega

/-- Before the length field the padded message is the message, the marker and zeros. -/
theorem pad_getD_of_lt (m : List Byte) (i : Nat) (h : i < 64 * padBlocks m - 8) :
    (pad m).getD i 0x00 = (m ++ [Config.marker]).getD i 0x00 := by
  have hlen := length_add_padZeros m
  rw [pad, List.getD_append _ _ _ _ (by simp; omega)]
  by_cases hi : i < m.length + 1
  · rw [List.getD_append _ _ _ _ (by simpa using hi)]
  · rw [List.getD_append_right _ _ _ _ (by simp; omega), List.getD_eq_default (m ++ _) _ (by simp; omega)]
    simp

/-- The length field of the padded message. -/
theorem pad_getD_length (m : List Byte) (k : Nat) (h : k < 8) :
    (pad m).getD (64 * padBlocks m - 8 + k) 0x00 = byteOfCount (lengthInBits m) k := by
  have hlen := length_add_padZeros m
  rw [pad, List.getD_append_right _ _ _ _ (by simp; omega)]
  rw [← bytes64_getD _ _ h]
  congr 1
  simp; omega

/-- The blocks before the last are those of the message and the marker. -/
theorem stateAfter_pad (m : List Byte) (k : Nat) (h : k < padBlocks m) :
    stateAfter (pad m) k = stateAfter (m ++ [Config.marker]) k :=
  stateAfter_congr _ _ k fun i hi => pad_getD_of_lt m i (by omega)

/-- The last block of the padded message: what is left of the message and the marker, then the length field. -/
theorem lastBlock_getElem (m : List Byte) (j : Nat) (hj : j < 64) :
    (messageBlock (pad m) (padBlocks m - 1))[j] =
      if 56 ≤ j then byteOfCount (lengthInBits m) (j - 56)
      else (m ++ [Config.marker]).getD (64 * (padBlocks m - 1) + j) 0x00 := by
  have hpos : 0 < padBlocks m := by rw [padBlocks_eq]; split <;> omega
  rw [messageBlock_getElem]
  by_cases h : 56 ≤ j
  · rw [if_pos h, ← pad_getD_length m _ (by omega)]
    congr 1; omega
  · rw [if_neg h, pad_getD_of_lt m _ (by omega)]

end Sys2Proof.Safety
end

section
/-! FEED and FINAL on an engine that holds the state of a message (10_state.md R35). -/

namespace Sys2Proof.Safety

open Sys2Proof.Machine

/-! ### Only the engine matters -/

theorem Absorbing.of_sameEngine {m : List Byte} {s t : State} (h : Absorbing m s) (he : t.toEngine = s.toEngine) :
    Absorbing m t := by
  obtain ⟨hphase, hfill, hbuf, hcount, hH⟩ := h
  constructor <;> rw [he] <;> assumption

theorem Finished.of_sameEngine {m : List Byte} {s t : State} (h : Finished m s) (he : t.toEngine = s.toEngine) :
    Finished m t := by
  obtain ⟨hphase, hfill, hbuf, hcount, hH⟩ := h
  constructor <;> rw [he] <;> assumption

/-! ### FEED -/

/-- The byte FEED stores is the next byte of block `floor(n / 64)` of the longer message. -/
theorem Absorbing.storeByte_read {m : List Byte} {s : State} (h : Absorbing m s) (d : Byte) (j : Fin 64)
    (hj : j.val ≤ s.fill.val) :
    (storeByte d s.toEngine).buf.read j = (m ++ [d]).getD (64 * (m.length / 64) + j.val) 0x00 := by
  have hfill := h.fill
  rw [Machine.storeByte_read, getD_append_singleton]
  by_cases hnew : j = s.fill
  · have hend : 64 * (m.length / 64) + j.val = m.length := by rw [hnew]; omega
    rw [if_pos hnew, if_neg (by omega), if_pos hend]
  · have hold : j.val < s.fill.val := by have := Fin.val_ne_of_ne hnew; omega
    rw [if_neg hnew, if_pos (by omega), h.buf j hold]

/-- A FEED that leaves room extends the message inside its last block. -/
theorem Absorbing.absorb_of_room {m : List Byte} {s t : State} (h : Absorbing m s) (d : Byte)
    (hroom : s.fill.val < 63) (he : t.toEngine = absorb d s.toEngine) : Absorbing (m ++ [d]) t := by
  have hfill := h.fill
  have hdiv : (m ++ [d]).length / 64 = m.length / 64 := by simp; omega
  rw [Machine.absorb_of_room d _ hroom] at he
  constructor <;> rw [he]
  case phase => exact h.phase
  case fill => simp; omega
  case buf =>
    intro j hj
    rw [hdiv]
    exact h.storeByte_read d j (Nat.lt_succ_iff.mp hj)
  case bitcount => rw [hdiv]; exact h.bitcount
  case H =>
    rw [hdiv, stateAfter_append m [d] _ (Nat.mul_div_le _ _)]
    exact h.H

/-- The FEED that fills the buffer completes block `floor(n / 64)` and compresses it. -/
theorem Absorbing.absorb_of_full {m : List Byte} {s t : State} (h : Absorbing m s) (d : Byte)
    (hfull : s.fill.val = 63) (he : t.toEngine = absorb d s.toEngine) : Absorbing (m ++ [d]) t := by
  have hfill := h.fill
  have hdiv : (m ++ [d]).length / 64 = m.length / 64 + 1 := by simp; omega
  rw [Machine.absorb_of_full d _ hfull] at he
  constructor <;> rw [he]
  case phase => exact h.phase
  case fill => simp; omega
  case buf => intro j hj; simp at hj
  case bitcount =>
    rw [hdiv, drain_bitcount, storeByte_bitcount, h.bitcount, Nat.mul_succ, BitVec.ofNat_add]
    rfl
  case H =>
    have hblock : readBlock (storeByte d s.toEngine).buf = messageBlock (m ++ [d]) (m.length / 64) :=
      readBlock_eq_messageBlock _ _ _ fun j => h.storeByte_read d j (by omega)
    rw [hdiv, drain_H, storeByte_H, hblock, h.H, stateAfter, stateAfter_append m [d] _ (Nat.mul_div_le _ _)]

/-- FEED extends the message by its byte (42_engine_feed.md R155). -/
theorem Absorbing.absorb {m : List Byte} {s t : State} (h : Absorbing m s) (d : Byte)
    (he : t.toEngine = absorb d s.toEngine) : Absorbing (m ++ [d]) t := by
  rcases Nat.lt_or_ge s.fill.val 63 with hroom | hfull
  · exact h.absorb_of_room d hroom he
  · exact h.absorb_of_full d (by omega) he

/-! ### FINAL -/

/-- Step 2 of FINAL puts the marker after the message and zeros after the marker. -/
theorem Absorbing.finalMark_read {m : List Byte} {s : State} (h : Absorbing m s) (j : Fin 64) :
    (finalMark (finalCount s.toEngine)).buf.read j =
      (m ++ [Config.marker]).getD (64 * (m.length / 64) + j.val) 0x00 := by
  have hfill := h.fill
  have hlt : 64 * (m.length / 64) + j.val < m.length ↔ j.val < s.fill.val := by omega
  have heq : 64 * (m.length / 64) + j.val = m.length ↔ j = s.fill := by rw [Fin.ext_iff]; omega
  rw [finalMark_finalCount_read, getD_append_singleton]
  simp only [hlt, heq]
  split
  case isTrue hj => exact h.buf j hj
  case isFalse => rfl

/-- Step 3 of FINAL leaves the last block of the padded message to be compressed, all but its length field. -/
theorem Absorbing.finalSpill_read {m : List Byte} {s : State} (h : Absorbing m s) (j : Fin 64) :
    (finalSpill (finalMark (finalCount s.toEngine))).buf.read j =
      (m ++ [Config.marker]).getD (64 * (padBlocks m - 1) + j.val) 0x00 := by
  have hfill := h.fill
  rcases Nat.lt_or_ge 55 s.fill.val with hfull | hroom
  · rw [finalSpill_finalMark_of_full _ hfull, padBlocks_of_full m (by omega), finalSpillBlock_buf,
      Memory.read_cleared, List.getD_eq_default _ _ (by simp; omega)]
  · rw [finalSpill_finalMark_of_room _ hroom, padBlocks_of_room m (by omega)]
    exact h.finalMark_read j

/-- After step 3 of FINAL all blocks of the padded message but the last have been compressed. -/
theorem Absorbing.finalSpill_H {m : List Byte} {s : State} (h : Absorbing m s) :
    (finalSpill (finalMark (finalCount s.toEngine))).H = stateAfter (pad m) (padBlocks m - 1) := by
  have hfill := h.fill
  have hwhole : stateAfter (m ++ [Config.marker]) (m.length / 64) = s.H := by
    rw [stateAfter_append m _ _ (Nat.mul_div_le _ _), h.H]
  rcases Nat.lt_or_ge 55 s.fill.val with hfull | hroom
  · have hblock := readBlock_eq_messageBlock _ _ _ h.finalMark_read
    have hcount := padBlocks_of_full m (by omega)
    rw [finalSpill_finalMark_of_full _ hfull, finalSpillBlock_H, hblock, finalMark_H, finalCount_H, ← hwhole,
      stateAfter_pad m _ (by omega), hcount]
    rfl
  · have hcount := padBlocks_of_room m (by omega)
    rw [finalSpill_finalMark_of_room _ hroom, finalMark_H, finalCount_H, ← hwhole, stateAfter_pad m _ (by omega), hcount]
    rfl

/-- The bits of the whole blocks and of the tail are the length of the message (43_engine_finalize.md R171). -/
theorem Absorbing.finalize_bitcount {m : List Byte} {s : State} (h : Absorbing m s) :
    (finalize s.toEngine).bitcount = lengthInBits m := by
  rw [Machine.finalize_bitcount, h.bitcount, tailBits, h.fill, ← BitVec.ofNat_add, lengthInBits]
  congr 1; omega

/-- FINAL leaves the last block of the padded message in the buffer. -/
theorem Absorbing.finalize_read {m : List Byte} {s : State} (h : Absorbing m s) (j : Fin 64) :
    (finalize s.toEngine).buf.read j = (messageBlock (pad m) (padBlocks m - 1))[j] := by
  have hcount : (finalSpill (finalMark (finalCount s.toEngine))).bitcount = lengthInBits m := h.finalize_bitcount
  rw [finalize_buf, finalLength_read, hcount, h.finalSpill_read j]
  exact (lastBlock_getElem m j.val j.isLt).symm

/-- FINAL compresses the whole padded message (43_engine_finalize.md R184). -/
theorem Absorbing.finalize_H {m : List Byte} {s : State} (h : Absorbing m s) :
    (finalize s.toEngine).H = paddedHash m := by
  have hblock : readBlock (finalize s.toEngine).buf = messageBlock (pad m) (padBlocks m - 1) :=
    (eq_readBlock _ _ fun j => (h.finalize_read j).symm).symm
  have hlast : padBlocks m = padBlocks m - 1 + 1 := by rw [padBlocks_eq]; split <;> omega
  rw [Machine.finalize_H, h.finalSpill_H, hblock, paddedHash, hlast]
  rfl

/-- FINAL completes the message the engine holds. -/
theorem Absorbing.finalize {m : List Byte} {s t : State} (h : Absorbing m s)
    (he : t.toEngine = finalize s.toEngine) : Finished m t := by
  constructor <;> rw [he]
  case phase => exact finalize_phase _
  case fill => rw [finalize_fill, h.fill]
  case buf => exact h.finalize_read
  case bitcount => exact h.finalize_bitcount
  case H => exact h.finalize_H

/-! ### The invariant -/

/-- A constructed engine holds the empty message. -/
theorem absorbing_of_constructed {s : State} (he : s.toEngine = constructed) : Absorbing [] s := by
  constructor <;> rw [he]
  case phase => rfl
  case fill => rfl
  case buf => intro j hj; simp at hj
  case bitcount => rfl
  case H => rfl

/-- In phase ACTIVE the message held is one fed so far, not a complete one. -/
theorem Inv.exists_absorbing {s : State} (h : Inv s) (hphase : s.phase = .active) : ∃ m, Absorbing m s := by
  obtain ⟨-, m, habs | hfin⟩ := h
  · exact ⟨m, habs⟩
  · exact absurd hfin.phase (by simp [hphase])

/-- Settles O41: by the cases of one step on the engine. -/
theorem stepKeepsTheMessageInvariant : Obligations.StepKeepsTheMessageInvariant := by
  intro s t hinv hstep
  refine ⟨step_keeps_wf s t hinv.1 hstep, ?_⟩
  rcases step_engine_cases s t hstep with he | ⟨he, -⟩ | ⟨hp, w, d, -, -, he⟩ | ⟨hp, he, -⟩
  · obtain ⟨-, m, hm⟩ := hinv
    exact ⟨m, hm.imp (·.of_sameEngine he) (·.of_sameEngine he)⟩
  · exact ⟨[], .inl (absorbing_of_constructed he)⟩
  · obtain ⟨m, hm⟩ := hinv.exists_absorbing hp
    exact ⟨m ++ [d], .inl (hm.absorb d he)⟩
  · obtain ⟨m, hm⟩ := hinv.exists_absorbing hp
    exact ⟨m, .inr (hm.finalize he)⟩

/-- Settles O6: FEED in phase ACTIVE is accepted and absorbs its byte. -/
theorem feedExtendsTheMessage : Obligations.FeedExtendsTheMessage := by
  intro m d s h
  exact ⟨_, exec_feed_active d s h.phase, h.absorb d rfl, .inr rfl⟩

/-- Settles O40: the reset state is a constructed engine. -/
theorem theInvariantHoldsAtReset : Obligations.TheInvariantHoldsAtReset := by
  have h : Absorbing [] State.reset := absorbing_of_constructed reset_toEngine
  exact ⟨⟨Memory.wf_cleared, [], .inl h⟩, h⟩

/-- Settles O1: each field of the constructed engine, and no response. -/
theorem resetLeavesTheConstructedState : Obligations.ResetLeavesTheConstructedState := by
  exact ⟨constructed_H, constructed_fill, Memory.read_cleared, constructed_bitcount, constructed_phase,
    rfl, rfl, rfl, rfl⟩

end Sys2Proof.Safety
end

section
/-! Who may write the phase, `H` and `bitcount` (10_state.md R21, R27, R28, R36). -/

namespace Sys2Proof.Machine

/-- `digest_valid` shows the encoding of the phase. -/
theorem digestValid_eq_phase_bit (e : Engine) : e.digestValid = (e.phase.bit == 1) := by
  rcases phase_cases e with hp | hp <;> simp [Engine.digestValid, isSpent, hp, Phase.bit]

/-- Settles O38: by the cases of one step on the engine, each with its phase before and after. -/
theorem onlyFinalSpendsOnlyInitRevives : Obligations.OnlyFinalSpendsOnlyInitRevives := by
  refine ⟨fun s t hstep => ?_, rfl, rfl, fun s => digestValid_eq_phase_bit s.toEngine⟩
  rcases step_engine_cases s t hstep with he | ⟨he, hport⟩ | ⟨hp, w, d, -, -, he⟩ | ⟨hp, he, hport⟩ <;> rw [he]
  · constructor <;> intro hbefore hafter <;> simp [hbefore] at hafter
  · exact ⟨by simp, fun _ _ => hport⟩
  · simp [hp]
  · exact ⟨fun _ _ => hport, by simp [hp]⟩

/-- FEED below 63 writes neither `H` nor `bitcount`. -/
theorem absorb_keeps_of_room (d : Byte) (e : Engine) (h : e.fill.val < 63) :
    (absorb d e).H = e.H ∧ (absorb d e).bitcount = e.bitcount := by
  simp [absorb_of_room d e h]

/-- FEED at 63 compresses once and counts one block. -/
theorem absorb_compresses_of_full (d : Byte) (e : Engine) (h : e.fill.val = 63) :
    (absorb d e).bitcount = e.bitcount + 512 ∧ ∃ M, (absorb d e).H = compress e.H M := by
  rw [absorb_of_full d e h]
  exact ⟨rfl, _, drain_H _⟩

/-- FINAL compresses one block, or two when the length field does not fit behind the marker. -/
theorem finalize_compresses (e : Engine) :
    (e.fill.val ≤ 55 ∧ ∃ M, (finalize e).H = compress e.H M) ∨
    (55 < e.fill.val ∧ ∃ M N, (finalize e).H = compress (compress e.H M) N) := by
  rcases Nat.lt_or_ge 55 e.fill.val with hfull | hroom
  · refine .inr ⟨hfull, readBlock (finalMark (finalCount e)).buf, readBlock (finalize e).buf, ?_⟩
    rw [finalize_H, finalSpill_finalMark_of_full e hfull, finalSpillBlock_H, finalMark_H, finalCount_H]
  · refine .inl ⟨hroom, readBlock (finalize e).buf, ?_⟩
    rw [finalize_H, finalSpill_finalMark_of_room e hroom, finalMark_H, finalCount_H]

/-- Settles O39: by the cases of one step on the engine, FEED split at fill 63. -/
theorem hashStateHasFourWriters : Obligations.HashStateHasFourWriters := by
  intro s t hstep
  rcases step_engine_cases s t hstep with he | ⟨he, hport⟩ | ⟨hp, w, d, hport, hw, he⟩ | ⟨hp, he, hport⟩ <;> rw [he]
  · exact .inl ⟨rfl, rfl⟩
  · exact .inr (.inl ⟨constructed_H, constructed_bitcount, hport⟩)
  · rcases Nat.lt_or_ge s.fill.val 63 with hroom | hfull
    · exact .inl (absorb_keeps_of_room d _ hroom)
    · have hfill : s.fill.val = 63 := by omega
      obtain ⟨hcount, hH⟩ := absorb_compresses_of_full d s.toEngine hfill
      exact .inr (.inr (.inl ⟨hp, hfill, hcount, hH, w, d, hport, hw⟩))
  · exact .inr (.inr (.inr ⟨hp, finalize_phase _, finalize_bitcount _, finalize_compresses _, hport⟩))

end Sys2Proof.Machine
end

section
/-! Runs over a stream depend on the engine and the stream alone (10_state.md R33, 43_engine_finalize.md R182). -/

namespace Sys2Proof.Machine

open Sys2Proof.Safety

/-- Every driven event is taken, and the engine alone decides the whole state it leaves, ports included. -/
theorem step_drive_answers (event : HostEvent) :
    ∃ f : Engine → State, ∀ s : State, step (drive event s) = .next (f s.toEngine) := by
  cases event with
  | reset => exact ⟨fun _ => State.reset, fun s => step_reset _ (drive_port .reset s)⟩
  | command w =>
    obtain ⟨f, hf⟩ := exec_answers (decodeWord w)
    refine ⟨fun e => { toEngine := (f e).engine, resp := some (f e).resp, port := none }, fun s => ?_⟩
    rw [step_command _ w (drive_port _ s), hf]
    rfl

/-- Every run reaches a next state. -/
theorem runStream_answers (events : List HostEvent) (s : State) : ∃ t, runStream events s = .next t := by
  induction events generalizing s with
  | nil => exact ⟨s, runStream_nil s⟩
  | cons event later ih =>
    obtain ⟨f, hf⟩ := step_drive_answers event
    rw [runStream_cons event later s _ (hf s)]
    exact ih _

/-- From the same engine a stream that is not empty runs to the very same state. -/
theorem runStream_cons_congr (event : HostEvent) (later : List HostEvent) (s u : State) (h : SameEngine s u) :
    runStream (event :: later) s = runStream (event :: later) u := by
  obtain ⟨f, hf⟩ := step_drive_answers event
  rw [runStream_cons event later s _ (hf s), runStream_cons event later u _ (hf u), h]

/-- A run over two streams in turn is the second run from where the first one ends. -/
theorem runStream_append (events later : List HostEvent) (s t : State) (h : runStream events s = .next t) :
    runStream (events ++ later) s = runStream later t := by
  induction events generalizing s with
  | nil => cases h; rfl
  | cons event rest ih =>
    obtain ⟨f, hf⟩ := step_drive_answers event
    rw [runStream_cons event rest s _ (hf s)] at h
    rw [List.cons_append, runStream_cons event _ s _ (hf s)]
    exact ih _ h

/-- Settles O43: the empty stream leaves both states, any other the same state. -/
theorem streamIsAParameterOfTheEngine : Obligations.StreamIsAParameterOfTheEngine := by
  refine ⟨fun events s u hsame => ?_, runStream_append⟩
  cases events with
  | nil => exact ⟨s, u, runStream_nil s, runStream_nil u, hsame, fun hne => absurd rfl hne⟩
  | cons event later =>
    obtain ⟨t, ht⟩ := runStream_answers (event :: later) s
    exact ⟨t, t, ht, runStream_cons_congr event later s u hsame ▸ ht, rfl, fun _ => rfl⟩

end Sys2Proof.Machine
end

section
/-! The scratch of the Compression Core is written before it is read (10_state.md R32). -/

namespace Sys2Proof.Machine

/-- The words expanded so far depend on the sixteen loaded words alone. -/
theorem schedExpand_congr (W V : Schedule) (h : ∀ (t : Nat) (ht : t < 16), W[t] = V[t]) (k : Nat) (hk : k ≤ 48) :
    ∀ (t : Nat) (ht : t < 16 + k), (schedExpand W k)[t] = (schedExpand V k)[t] := by
  induction k with
  | zero => exact h
  | succ k ih =>
    intro t ht
    have agree := ih (by omega)
    simp only [schedExpand_succ _ k (show k < 48 by omega)]
    rw [Vector.getElem_set, Vector.getElem_set]
    split
    · rw [agree k, agree (k + 1), agree (k + 9), agree (k + 14)] <;> omega
    · exact agree t (by omega)

/-- The schedule is the same over whatever `W` held before. -/
theorem scheduleOver_eq_schedule (W : Schedule) (M : Block) : scheduleOver W M = schedule M := by
  have loaded (t : Nat) (ht : t < 16) :
      (schedLoad W M 16)[t] = (schedLoad (Vector.replicate 64 0) M 16)[t] := by
    rw [schedLoad_getElem _ _ _ _ _ (Nat.le_refl 16), schedLoad_getElem _ _ _ _ _ (Nat.le_refl 16),
      dif_pos ht, dif_pos ht]
  exact Vector.ext (schedExpand_congr _ _ loaded 48 (Nat.le_refl 48))

/-- COMPRESS over any scratch: the schedule and the rounds of the pure function. -/
theorem compressOver_eq (sc : Scratch) (S : HashState) (M : Block) :
    compressOver sc S M = (⟨schedule M, hashRounds (schedule M) (wvInit S) 64⟩, compress S M) := by
  simp only [compressOver, scheduleOver_eq_schedule, compress]

/-- Settles O33: COMPRESS over any scratch is the one pair of `compressOver_eq`. -/
theorem leftoverScratchReachesNoResult : Obligations.LeftoverScratchReachesNoResult := by
  intro sc sc' S M
  rw [compressOver_eq sc, compressOver_eq sc']
  exact ⟨rfl, rfl⟩

end Sys2Proof.Machine
end

section
/-! The block buffer's bytes and the message schedule, big-endian (20_memory.md R51 to R53, 40_compress_schedule.md R102,
R103). -/

namespace Sys2Proof.Machine

/-! ### `MemRead` -/

/-- A field of a field is a field of the whole. -/
theorem extractLsb'_extractLsb'_of_fits {w lo len : Nat} (v : BitVec w) (start n : Nat) (h : start + n ≤ len) :
    (v.extractLsb' lo len).extractLsb' start n = v.extractLsb' (lo + start) n := by
  ext i hi
  have inside : start + i < len := by omega
  simp [inside, Nat.add_assoc]

/-- `MemRead(j, n)` is the value whose byte `k`, the most significant first, stands at `j + k` (20_memory.md R52). -/
theorem memRead_eq_of_bytes (m : Memory) (j n : Nat) (v : BitVec (8 * n)) (h : j + n ≤ 64)
    (bytes : ∀ (k : Nat) (hk : k < n), m.read ⟨j + k, by omega⟩ = v.extractLsb' (8 * (n - k - 1)) 8) :
    memRead m j n h = v := by
  induction n with
  | zero => exact (BitVec.eq_nil v).symm
  | succ n ih =>
    have leading : memRead m j n (by omega) = v.extractLsb' 8 (8 * n) := by
      refine ih _ _ fun k hk => ?_
      rw [bytes k (by omega), extractLsb'_extractLsb'_of_fits _ _ _ (by omega)]
      congr 1; omega
    have last : m.read ⟨j + n, by omega⟩ = v.extractLsb' 0 8 := by
      rw [bytes n (by omega)]
      congr 1; omega
    rw [memRead, leading, last]
    exact BitVec.extractLsb'_append_extractLsb'

/-- Settles O21: the read law of `MemWrite` inside and outside the bytes written, then `MemRead` byte by byte. -/
theorem bufferAccessIsBigEndian : Obligations.BufferAccessIsBigEndian := by
  intro m j n v h
  have written (k : Nat) (hk : k < n) :
      (memWrite m j n v h).read ⟨j + k, by omega⟩ = v.extractLsb' (8 * (n - k - 1)) 8 := by
    rw [read_memWrite, if_pos (by simpa using hk), Nat.add_sub_cancel_left]
  refine ⟨written, fun a ha => ?_, memRead_eq_of_bytes _ j n v h written⟩
  rw [read_memWrite, if_neg (by omega)]

/-- Settles O23: the buffer a step leaves is the old one, a cleared one, or one that FEED or FINAL wrote. -/
theorem stepKeepsTheCanonicalBuffer : Obligations.StepKeepsTheCanonicalBuffer := by
  intro s t hwf hstep
  exact step_keeps_wf s t hwf hstep

/-- A buffer's block depends only on the bytes it reads. -/
theorem readBlock_congr {m m' : Memory} (h : ∀ j : Fin 64, m.read j = m'.read j) : readBlock m = readBlock m' :=
  eq_readBlock m' _ fun j => (readBlock_getElem m j.val j.isLt).trans (h j)

/-! ### The schedule -/

/-- Four bytes fit in a word, so nothing is cut off (00_scope.md R13). -/
theorem toNat_be32 (b0 b1 b2 b3 : Byte) :
    (be32 b0 b1 b2 b3).toNat = b0.toNat * 2 ^ 24 + b1.toNat * 2 ^ 16 + b2.toNat * 2 ^ 8 + b3.toNat := by
  rw [be32, BitVec.toNat_ofNat, Nat.mod_eq_of_lt]
  omega

/-- The first sixteen words of the schedule are the words of the block (40_compress_schedule.md R102). -/
theorem schedule_getElem_of_lt (M : Block) (t : Nat) (ht : t < 16) : (schedule M)[t] = blockWord M t ht := by
  rw [schedule, scheduleOver, schedExpand_low _ _ _ ht, schedLoad_getElem _ _ _ _ _ (Nat.le_refl 16), dif_pos ht]

/-- The first `k` turns of SCHED_EXPAND already leave the words of the schedule below `16 + k`. -/
theorem schedule_getElem_eq_schedExpand (M : Block) (k t : Nat) (hk : k ≤ 48) (ht : t < 16 + k) :
    (schedule M)[t] = (schedExpand (schedLoad (Vector.replicate 64 0) M 16) k)[t] := by
  have h := schedExpand_stable (schedLoad (Vector.replicate 64 0) M 16) k t (by omega) ht (48 - k)
  rw [schedule, scheduleOver]
  simpa only [Nat.add_sub_cancel' hk] using h

/-- Every later word of the schedule is the sum of the recurrence (40_compress_schedule.md R103). -/
theorem schedule_getElem_add (M : Block) (k : Nat) (hk : k < 48) :
    (schedule M)[16 + k] =
      (schedule M)[k] + sigma0 (schedule M)[k + 1] + (schedule M)[k + 9] + sigma1 (schedule M)[k + 14] := by
  have before (t : Nat) (ht : t < 16 + k) := schedule_getElem_eq_schedExpand M k t (by omega) ht
  rw [schedule_getElem_eq_schedExpand M (k + 1) (16 + k) hk (by omega)]
  simp only [schedExpand_succ _ k hk, Vector.getElem_set_self, add32]
  rw [← before k, ← before (k + 1), ← before (k + 9), ← before (k + 14)] <;> omega

/-- Settles O30: the loaded words as numbers, and the recurrence at `t = 16 + k`. -/
theorem scheduleFollowsTheRecurrence : Obligations.ScheduleFollowsTheRecurrence := by
  refine fun M => ⟨fun t ht => ?_, fun t hlow ht => ?_⟩
  · rw [schedule_getElem_of_lt M t ht, blockWord, toNat_be32]
  · obtain ⟨k, rfl⟩ := Nat.exists_eq_add_of_le hlow
    have recurrence := schedule_getElem_add M k (by omega)
    simpa [show 16 + k - 16 = k by omega, show 16 + k - 15 = k + 1 by omega, show 16 + k - 7 = k + 9 by omega,
      show 16 + k - 2 = k + 14 by omega] using recurrence

end Sys2Proof.Machine
end

section
/-! The digest and the wide ports (20_memory.md R55, R57, 43_engine_finalize.md R181). -/

namespace Sys2Proof.Machine

/-! ### What the host sees in each phase -/

theorem digestValid_of_active (e : Engine) (h : e.phase = .active) : e.digestValid = false := (not_isSpent_iff e).mpr h

theorem digestValid_of_spent (e : Engine) (h : e.phase = .spent) : e.digestValid = true := (isSpent_iff e).mpr h

theorem digest_of_active (e : Engine) (h : e.phase = .active) : e.digest = none := by
  simp [Engine.digest, (not_isSpent_iff e).mpr h]

theorem digest_of_spent (e : Engine) (h : e.phase = .spent) : e.digest = some (serialize e.H) := by
  simp [Engine.digest, (isSpent_iff e).mpr h]

theorem digestPort_of_active (e : Engine) (h : e.phase = .active) : e.digestPort = none := by
  simp [Engine.digestPort, (not_isSpent_iff e).mpr h]

theorem digestPort_of_spent (e : Engine) (h : e.phase = .spent) : e.digestPort = some (packState e.H) := by
  simp [Engine.digestPort, (isSpent_iff e).mpr h]

/-- Byte `n` of the serialised state is byte `n % 4` of word `n / 4`. -/
theorem serialize_getElem (H : HashState) (n : Nat) (hn : n < 32) :
    (serialize H)[n] = byteOfWord (H[n / 4]'(by omega)) (n % 4) := by
  simp [serialize]

/-- Settles O35: the view of the digest in each phase, and the bytes of the serialised state. -/
theorem digestIsTheSerializedState : Obligations.DigestIsTheSerializedState := by
  refine fun s => ⟨fun hp => ⟨digestValid_of_active _ hp, digest_of_active _ hp, digestPort_of_active _ hp⟩, fun hp =>
    ⟨digestValid_of_spent _ hp, serialize s.H, digest_of_spent _ hp, fun i k => ?_⟩⟩
  have hword : (4 * i.val + k.val) / 4 = i.val := by omega
  have hbyte : (4 * i.val + k.val) % 4 = k.val := by omega
  rw [serialize_getElem, byteOfWord]
  simp only [hword, hbyte, Fin.getElem_fin]

/-! ### Packing -/

/-- A field of bits inside word `i` of a packed state is that field of the word. -/
theorem extractLsb'_packState (H : HashState) (i : Fin 8) (lo n : Nat) (h : lo + n ≤ 32) :
    (packState H).extractLsb' (224 - 32 * i.val + lo) n = H[i].extractLsb' lo n := by
  ext b hb
  rw [BitVec.getElem_extractLsb', BitVec.getElem_extractLsb', Nat.add_assoc, packState_getLsbD H i _ (by omega)]

/-- A packed state carries word `i` in bits `[255-32i : 224-32i]`. -/
theorem packState_word (H : HashState) (i : Fin 8) : (packState H).extractLsb' (224 - 32 * i.val) 32 = H[i] := by
  simpa using extractLsb'_packState H i 0 32 (Nat.le_refl 32)

/-- A packed state carries byte `k` of the serialised state in bits `[255-8k : 248-8k]`. -/
theorem packState_byte (H : HashState) (k : Fin 32) : (packState H).extractLsb' (248 - 8 * k.val) 8 = (serialize H)[k] := by
  have place : 248 - 8 * k.val = 224 - 32 * (k.val / 4) + (24 - 8 * (k.val % 4)) := by omega
  rw [place, extractLsb'_packState H ⟨k.val / 4, by omega⟩ _ 8 (by omega)]
  exact (serialize_getElem H k.val k.isLt).symm

theorem unpackState_getElem (p : BitVec 256) (i : Fin 8) : (unpackState p)[i] = p.extractLsb' (224 - 32 * i.val) 32 := by
  simp [unpackState]

theorem unpackBlock_getElem (p : BitVec 512) (j : Fin 64) : (unpackBlock p)[j] = p.extractLsb' (504 - 8 * j.val) 8 := by
  simp [unpackBlock]

/-- Packing gives the port back: bit `b` stands in word `7 - b / 32`. -/
theorem packState_unpackState (p : BitVec 256) : packState (unpackState p) = p := by
  apply BitVec.eq_of_getLsbD_eq
  intro b hb
  have place : b = 224 - 32 * (7 - b / 32) + b % 32 := by omega
  have packed := packState_getLsbD (unpackState p) ⟨7 - b / 32, by omega⟩ (b % 32) (by omega)
  rw [unpackState_getElem, BitVec.getLsbD_extractLsb'] at packed
  simpa [← place, Nat.mod_lt] using packed

/-- Settles O36: the digest port is the packed `H`, whose bytes and words stand as packed; unpacking reads them there. -/
theorem widePortsPackBigEndian : Obligations.WidePortsPackBigEndian := by
  refine ⟨fun s hp => ?_, unpackState_getElem, packState_unpackState, unpackBlock_getElem⟩
  exact ⟨packState s.H, serialize s.H, digestPort_of_spent _ hp, digest_of_spent _ hp, packState_byte s.H,
    packState_word s.H 0, packState_word s.H 7⟩

end Sys2Proof.Machine
end

section
/-! Stale buffer bytes and the dead state of a spent engine (20_memory.md R69, 43_engine_finalize.md R180). -/

namespace Sys2Proof.Safety

open Sys2Proof.Machine

/-- `LiveEq` of the engines alone, without the ports. -/
structure LiveEngine (e f : Engine) : Prop where
  H : e.H = f.H
  phase : e.phase = f.phase
  fill : e.phase = .active → e.fill = f.fill
  bitcount : e.phase = .active → e.bitcount = f.bitcount
  buf : e.phase = .active → ∀ j : Fin 64, j.val < e.fill.val → e.buf.read j = f.buf.read j

theorem LiveEq.liveEngine {s u : State} (h : LiveEq s u) : LiveEngine s.toEngine u.toEngine :=
  ⟨h.H, h.phase, h.fill, h.bitcount, h.buf⟩

theorem LiveEq.of_liveEngine {s u : State} (h : LiveEngine s.toEngine u.toEngine) (hresp : s.resp = u.resp)
    (hport : s.port = u.port) : LiveEq s u :=
  ⟨h.H, h.phase, hresp, hport, h.fill, h.bitcount, h.buf⟩

theorem LiveEngine.refl (e : Engine) : LiveEngine e e :=
  ⟨rfl, rfl, fun _ => rfl, fun _ => rfl, fun _ _ _ => rfl⟩

/-- In phase SPENT only `H` is alive (43_engine_finalize.md R180). -/
theorem LiveEngine.of_spent {e f : Engine} (he : e.phase = .spent) (hf : f.phase = .spent) (hH : e.H = f.H) :
    LiveEngine e f := by
  constructor
  case H => exact hH
  case phase => rw [he, hf]
  all_goals simp [he]

/-- The digest shows nothing but what is alive. -/
theorem LiveEngine.digest_eq {e f : Engine} (h : LiveEngine e f) : e.digest = f.digest := by
  rcases phase_cases e with hp | hp
  · rw [digest_of_active e hp, digest_of_active f (h.phase ▸ hp)]
  · rw [digest_of_spent e hp, digest_of_spent f (h.phase ▸ hp), h.H]

/-! ### FEED -/

/-- After FEED's store the bytes up to and including the new one agree. -/
theorem LiveEngine.storeByte_read {e f : Engine} (h : LiveEngine e f) (hp : e.phase = .active) (d : Byte) (j : Fin 64)
    (hj : j.val ≤ e.fill.val) : (storeByte d e).buf.read j = (storeByte d f).buf.read j := by
  rw [Machine.storeByte_read, Machine.storeByte_read, ← h.fill hp]
  split
  · rfl
  · next hne =>
    have := Fin.val_ne_of_ne hne
    exact h.buf hp j (by omega)

/-- FEED in phase ACTIVE: with room the new byte joins those below `fill`; at 63 the whole buffer is compressed and no
byte of it is alive any more. -/
theorem LiveEngine.absorb {e f : Engine} (h : LiveEngine e f) (hp : e.phase = .active) (d : Byte) :
    LiveEngine (absorb d e) (absorb d f) := by
  have hfill := h.fill hp
  have hcount := h.bitcount hp
  have hread := h.storeByte_read hp d
  rcases Nat.lt_or_ge e.fill.val 63 with hroom | hfull
  · rw [absorb_of_room d e hroom, absorb_of_room d f (hfill ▸ hroom)]
    constructor
    case H => exact h.H
    case phase => exact h.phase
    case fill => intro _; simp only [hfill]
    case bitcount => intro _; exact hcount
    case buf => intro _ j hj; exact hread j (Nat.lt_succ_iff.mp hj)
  · have hlast : e.fill.val = 63 := by omega
    have hblock : readBlock (storeByte d e).buf = readBlock (storeByte d f).buf :=
      readBlock_congr fun j => hread j (by omega)
    rw [absorb_of_full d e hlast, absorb_of_full d f (hfill ▸ hlast)]
    constructor
    case H => rw [drain_H, drain_H, storeByte_H, storeByte_H, h.H, hblock]
    case phase => exact h.phase
    case fill => intro _; rfl
    case bitcount => intro _; simp [hcount]
    case buf => intro _ j hj; simp at hj

/-! ### FINAL -/

/-- After step 2 of FINAL the whole buffer is alive, and agrees. -/
theorem LiveEngine.finalMark_read {e f : Engine} (h : LiveEngine e f) (hp : e.phase = .active) (j : Fin 64) :
    (finalMark (finalCount e)).buf.read j = (finalMark (finalCount f)).buf.read j := by
  rw [finalMark_finalCount_read, finalMark_finalCount_read, ← h.fill hp]
  split
  · next hj => exact h.buf hp j hj
  · rfl

/-- After step 3 of FINAL `H` and the whole buffer agree, in the one-block and in the two-block case. -/
theorem LiveEngine.finalSpill_eq {e f : Engine} (h : LiveEngine e f) (hp : e.phase = .active) :
    (finalSpill (finalMark (finalCount e))).H = (finalSpill (finalMark (finalCount f))).H ∧
    ∀ j, (finalSpill (finalMark (finalCount e))).buf.read j = (finalSpill (finalMark (finalCount f))).buf.read j := by
  have hfill := h.fill hp
  have hread := h.finalMark_read hp
  rcases Nat.lt_or_ge 55 e.fill.val with hfull | hroom
  · rw [finalSpill_finalMark_of_full e hfull, finalSpill_finalMark_of_full f (hfill ▸ hfull)]
    have hblock : readBlock (finalMark (finalCount e)).buf = readBlock (finalMark (finalCount f)).buf :=
      readBlock_congr hread
    refine ⟨?_, fun _ => rfl⟩
    rw [finalSpillBlock_H, finalSpillBlock_H, hblock, finalMark_H, finalMark_H, finalCount_H, finalCount_H, h.H]
  · rw [finalSpill_finalMark_of_room e hroom, finalSpill_finalMark_of_room f (hfill ▸ hroom)]
    exact ⟨h.H, hread⟩

/-- FINAL in phase ACTIVE: the last compression runs over the same `H` and the same buffer. -/
theorem LiveEngine.finalize {e f : Engine} (h : LiveEngine e f) (hp : e.phase = .active) :
    LiveEngine (finalize e) (finalize f) := by
  obtain ⟨hH, hread⟩ := h.finalSpill_eq hp
  have hcount : (finalSpill (finalMark (finalCount e))).bitcount = (finalSpill (finalMark (finalCount f))).bitcount := by
    simp [tailBits, h.fill hp, h.bitcount hp]
  have hblock : readBlock (Machine.finalize e).buf = readBlock (Machine.finalize f).buf :=
    readBlock_congr fun j => by
      rw [finalize_buf, finalize_buf, finalLength_read, finalLength_read, hcount, hread j]
  refine .of_spent (finalize_phase e) (finalize_phase f) ?_
  rw [finalize_H, finalize_H, hH, hblock]

/-! ### Commands and steps -/

/-- Two accepted commands that leave engines alike in what is alive. -/
theorem LiveEq.accepted {s u : State} (h : LiveEq s u) {e f : Engine} (hengine : LiveEngine e f) :
    LiveEq (s.answered (accept e)) (u.answered (accept f)) :=
  .of_liveEngine hengine rfl h.port

/-- Two rejected commands with the same code. -/
theorem LiveEq.rejected {s u : State} (h : LiveEq s u) (code : Response) :
    LiveEq (s.answered (reject code s.toEngine)) (u.answered (reject code u.toEngine)) :=
  .of_liveEngine h.liveEngine rfl h.port

/-- Every command keeps the agreement. -/
theorem LiveEq.exec {s u : State} (h : LiveEq s u) (i : Instr) :
    ∃ t v, exec i s = .next t ∧ exec i u = .next v ∧ LiveEq t v := by
  have hengine := h.liveEngine
  have hphase := h.phase
  cases i with
  | init => exact ⟨_, _, exec_init s, exec_init u, h.accepted (.refl _)⟩
  | reserved => exact ⟨_, _, exec_reserved s, exec_reserved u, h.rejected _⟩
  | feed d =>
    rcases phase_cases s.toEngine with hp | hp
    · exact ⟨_, _, exec_feed_active d s hp, exec_feed_active d u (hphase ▸ hp), h.accepted (hengine.absorb hp d)⟩
    · exact ⟨_, _, exec_feed_spent d s hp, exec_feed_spent d u (hphase ▸ hp), h.rejected _⟩
  | final =>
    rcases phase_cases s.toEngine with hp | hp
    · exact ⟨_, _, exec_final_active s hp, exec_final_active u (hphase ▸ hp), h.accepted (hengine.finalize hp)⟩
    · exact ⟨_, _, exec_final_spent s hp, exec_final_spent u (hphase ▸ hp), h.rejected _⟩

/-- Every step keeps the agreement: both states see the same event at their ports. -/
theorem LiveEq.step {s u : State} (h : LiveEq s u) : ∃ t v, step s = .next t ∧ step u = .next v ∧ LiveEq t v := by
  have hport := h.port
  rcases hs : s.port with _ | _ | w
  case none => exact ⟨s, u, step_idle s hs, step_idle u (hport ▸ hs), h⟩
  case some.reset =>
    exact ⟨_, _, step_reset s hs, step_reset u (hport ▸ hs), .of_liveEngine (.refl _) rfl rfl⟩
  case some.command =>
    have taken : LiveEq { s with port := none } { u with port := none } := .of_liveEngine h.liveEngine h.resp rfl
    rw [step_command s _ hs, step_command u _ (hport ▸ hs)]
    exact taken.exec _

/-- Settles O24: a step keeps the agreement, and states that agree show the same digest. -/
theorem staleStateReachesNothing : Obligations.StaleStateReachesNothing := by
  intro s u h
  obtain ⟨t, v, hs, hu, htv⟩ := h.step
  exact ⟨t, v, hs, hu, htv, htv.liveEngine.digest_eq⟩

end Sys2Proof.Safety
end

section
/-! The two fields of a command word, and what decoding makes of each opcode (30_encoding.md R81 to R84). -/

namespace Sys2Proof

/-! ### Fields -/

@[simp] theorem opField_formatC (op : BitVec 2) (data : Byte) : opField (formatC op data) = op :=
  BitVec.extractLsb'_append_eq_left

@[simp] theorem dataField_formatC (op : BitVec 2) (data : Byte) : dataField (formatC op data) = data :=
  BitVec.extractLsb'_append_eq_right

/-- A word is its two fields (R81). -/
theorem formatC_fields (w : CmdWord) : formatC (opField w) (dataField w) = w :=
  BitVec.extractLsb'_append_extractLsb'

/-- The mask `0x300` of every row keeps the opcode and drops the data (R82). -/
theorem and_mask (w : CmdWord) : w &&& 0x300 = formatC (opField w) 0x00 :=
  calc w &&& 0x300
    _ = formatC (opField w) (dataField w) &&& formatC 0b11 0x00 := by rw [formatC_fields]; rfl
    _ = formatC (opField w &&& 0b11) (dataField w &&& 0x00) := BitVec.and_append
    _ = formatC (opField w) 0x00 := by
      rw [show (0b11 : BitVec 2) = BitVec.allOnes 2 from rfl, BitVec.and_allOnes]
      simp

/-- A masked word shows its opcode and nothing else. -/
theorem and_mask_eq_iff (w : CmdWord) (op : BitVec 2) : w &&& 0x300 = formatC op 0x00 ↔ opField w = op := by
  rw [and_mask]
  exact ⟨fun h => by simpa using congrArg opField h, fun h => by rw [h]⟩

/-- The four opcodes, one for each row of the map (R82). -/
theorem opField_cases (w : CmdWord) :
    opField w = 0b00 ∨ opField w = 0b01 ∨ opField w = 0b10 ∨ opField w = 0b11 := by
  generalize opField w = op
  revert op
  decide

/-! ### Decoding and encoding -/

theorem decodeWord_init {w : CmdWord} (h : opField w = 0b00) : decodeWord w = .init := by simp [decodeWord, h]

theorem decodeWord_feed {w : CmdWord} (h : opField w = 0b01) : decodeWord w = .feed (dataField w) := by
  simp [decodeWord, h]

theorem decodeWord_final {w : CmdWord} (h : opField w = 0b10) : decodeWord w = .final := by simp [decodeWord, h]

theorem decodeWord_reserved {w : CmdWord} (h : opField w = 0b11) : decodeWord w = .reserved := by simp [decodeWord, h]

/-- Encoding loses nothing of a command. -/
@[simp] theorem decodeWord_encode (i : Instr) : decodeWord (encode i) = i := by
  cases i with
  | init => exact decodeWord_init (opField_formatC _ _)
  | feed d => exact (decodeWord_feed (opField_formatC _ _)).trans (congrArg Instr.feed (dataField_formatC _ _))
  | final => exact decodeWord_final (opField_formatC _ _)
  | reserved => exact decodeWord_reserved (opField_formatC _ _)

/-- What the encoding of a decoded word keeps: the opcode always, the data where they are FEED's operand. -/
theorem encode_decodeWord (w : CmdWord) :
    encode (decodeWord w) = formatC (opField w) (if opField w = 0b01 then dataField w else 0x00) := by
  rcases opField_cases w with h | h | h | h
  · rw [decodeWord_init h, h]; rfl
  · rw [decodeWord_feed h, h]; rfl
  · rw [decodeWord_final h, h]; rfl
  · rw [decodeWord_reserved h, h]; rfl

/-- A word with no don't-care bit set is encoded as itself (R83). -/
theorem encode_decodeWord_of_no_dont_care {w : CmdWord} (h : opField w = 0b01 ∨ dataField w = 0x00) :
    encode (decodeWord w) = w := by
  have data : (if opField w = 0b01 then dataField w else 0x00) = dataField w := by
    split
    · rfl
    · next hop => exact (h.resolve_left hop).symm
  rw [encode_decodeWord, data, formatC_fields]

/-! ### The opcode map -/

/-- A row sees the opcode of a word only: its mask drops the data. -/
theorem spells_congr {w v : CmdWord} (h : opField w = opField v) {r : OpcodeRow} (hr : r ∈ opcodeTable) :
    r.spells w = r.spells v := by
  have mask : ∀ r ∈ opcodeTable, r.mask = 0x300 := by decide
  rw [OpcodeRow.spells, OpcodeRow.spells, mask r hr, and_mask, and_mask, h]

/-- The encoding of a command is in that command's one row. -/
theorem ownRow (i : Instr) : Laws.OwnRow.Statement i := by
  cases i with
  | init => exact Laws.OwnRow.init
  | feed d => exact Laws.OwnRow.feed d
  | final => exact Laws.OwnRow.final
  | reserved => exact Laws.OwnRow.reserved

/-- A word is in the one row of the command it decodes to: the encoding of that command has the same opcode. -/
theorem rows_spelling_word (w : CmdWord) :
    (opcodeTable.filter fun r => r.spells w).map OpcodeRow.mnemonic = [(decodeWord w).mnemonic] := by
  have sameOp : opField w = opField (encode (decodeWord w)) := by rw [encode_decodeWord, opField_formatC]
  rw [List.filter_congr fun r hr => spells_congr sameOp hr]
  exact ownRow (decodeWord w)

/-- Settles O17: the one row by `rows_spelling_word`, the command of each row by the opcode the mask shows. -/
theorem decodeFollowsTheOpcodeMap : Obligations.DecodeFollowsTheOpcodeMap := by
  refine fun w => ⟨rows_spelling_word w, fun h => ?init, fun h => ?feed, fun h => ?final, fun h => ?reserved⟩
  case init => exact decodeWord_init ((and_mask_eq_iff w 0b00).mp h)
  case feed => exact decodeWord_feed ((and_mask_eq_iff w 0b01).mp h)
  case final => exact decodeWord_final ((and_mask_eq_iff w 0b10).mp h)
  case reserved => exact decodeWord_reserved ((and_mask_eq_iff w 0b11).mp h)

/-- Settles O18: the opcode of each written word picks its command; the two FEED words also show their byte. -/
theorem writtenOutWordsDecode : Obligations.WrittenOutWordsDecode :=
  ⟨decodeWord_init (by decide), decodeWord_feed (by decide), decodeWord_feed (by decide), decodeWord_final (by decide),
    decodeWord_reserved (by decide)⟩

/-! ### Lines of the assembler -/

/-- Decoding a list of encoded commands gives the commands. -/
theorem map_decodeWord_map_encode {α : Type} (f : α → Instr) (l : List α) :
    (l.map fun a => encode (f a)).map decodeWord = l.map f := by
  rw [List.map_map]
  exact List.map_congr_left fun a _ => decodeWord_encode (f a)

/-- Settles O20: the words of a line are a map or a repetition of `encode`, which decoding undoes. -/
theorem feedLinesExpandByteByByte : Obligations.FeedLinesExpandByteByByte := by
  refine ⟨fun t u => ?cut, fun t => ?text, fun ns => ?bytes, fun n b => ?repeated, rfl, fun n => rfl⟩
  case cut => exact List.map_append
  case text => exact map_decodeWord_map_encode _ t
  case bytes => exact map_decodeWord_map_encode _ ns
  case repeated => rw [AsmLine.words, List.map_replicate, decodeWord_encode]

end Sys2Proof
end

section
/-! A command word at the port: the command it runs, the order of the tests, the response (30_encoding.md R85 to R88). -/

namespace Sys2Proof.Machine

open Sys2Proof.Safety

/-! ### From a number to the port -/

/-- A command word read off any view of at least ten bits is that word. -/
theorem commandWord_toNat (w : CmdWord) (nbits : Nat) (h : 10 ≤ nbits) : commandWord (w.toNat % 2 ^ nbits) = .ok w := by
  have fits : w.toNat < 2 ^ nbits := Nat.lt_of_lt_of_le w.isLt (Nat.pow_le_pow_right (by decide) h)
  rw [Nat.mod_eq_of_lt fits, commandWord, if_pos w.isLt, BitVec.ofNat_toNat, BitVec.setWidth_eq]

theorem commandWord_of_ge {n : Nat} (h : 1024 ≤ n) : commandWord n = .error .notTenBits := if_neg (Nat.not_lt.mpr h)

theorem decodeTableWord_toNat (w : CmdWord) (nbits : Nat) (h : 10 ≤ nbits) :
    decodeTableWord nbits w.toNat = some (decodeWord w) := by
  rw [decodeTableWord, decodeNat, commandWord_toNat w nbits h]

theorem withFetchWord_toNat (s : State) (w : CmdWord) (nbits : Nat) (h : 10 ≤ nbits) :
    s.withFetchWord nbits w.toNat = present w s := by
  rw [State.withFetchWord, presentNat, commandWord_toNat w nbits h]

/-- Settles O19: the number of an encoded command is read back as its word, both in the table view and at the port. -/
theorem encodeThenDecodeThroughThePort : Obligations.EncodeThenDecodeThroughThePort := by
  refine ⟨fun i s => ⟨decodeWord_encode i, ?table, ?port⟩, fun w => encode_decodeWord_of_no_dont_care, fun n h => ?wide⟩
  case table => rw [decodeTableWord_toNat _ 16 (by decide), decodeWord_encode]
  case port => rw [withFetchWord_toNat _ _ 16 (by decide), step_present, decodeWord_encode]
  case wide => rw [decodeNat, commandWord_of_ge h]

/-! ### The accepted word -/

/-- Settles O16: a presented word is executed, an empty port leaves the state. -/
theorem stepRunsTheDecodedCommand : Obligations.StepRunsTheDecodedCommand :=
  ⟨step_command, step_idle⟩

/-- In phase SPENT a word that is neither INIT nor reserved is rejected (60_exceptions.md R202). -/
theorem exec_decodeWord_spent {w : CmdWord} {s : State} (hreserved : opField w ≠ 0b11) (hinit : opField w ≠ 0b00)
    (hp : s.phase = .spent) : exec (decodeWord w) s = .next (s.answered (reject .errSpent s.toEngine)) := by
  rcases opField_cases w with h | h | h | h
  · exact absurd h hinit
  · rw [decodeWord_feed h, exec_feed_spent _ s hp]
  · rw [decodeWord_final h, exec_final_spent s hp]
  · exact absurd h hreserved

/-- The order of the tests on an accepted word (30_encoding.md R88), as an equation of the step. -/
theorem step_present_of_opField (s : State) (w : CmdWord) :
    step (present w s) =
      if opField w = 0b11 then .next { s with resp := some .errIllegal, port := none }
      else if opField w = 0b00 then exec .init { s with port := none }
      else if s.phase = .spent then .next { s with resp := some .errSpent, port := none }
      else if opField w = 0b01 then exec (.feed (dataField w)) { s with port := none }
      else exec .final { s with port := none } := by
  rw [step_present]
  split_ifs with hreserved hinit hspent hfeed
  · rw [decodeWord_reserved hreserved, exec_reserved]; rfl
  · rw [decodeWord_init hinit]
  · exact exec_decodeWord_spent hreserved hinit hspent
  · rw [decodeWord_feed hfeed]
  · have hfinal : opField w = 0b10 :=
      (((opField_cases w).resolve_left hinit).resolve_left hfeed).resolve_right hreserved
    rw [decodeWord_final hfinal]

/-- Settles O12: the equation of the step, with the fields written out. -/
theorem acceptedWordFollowsTheTestOrder : Obligations.AcceptedWordFollowsTheTestOrder :=
  step_present_of_opField

/-- Settles O13: one answer in each case of the test order; only the two rejections are not OK, and they keep the
engine. -/
theorem everyCommandIsAnswered : Obligations.EveryCommandIsAnswered := by
  intro s w
  rw [step_present_of_opField]
  split_ifs with hreserved hinit hspent hfeed
  · exact ⟨_, rfl, rfl, rfl, rfl, fun _ => rfl⟩
  · exact ⟨_, exec_init _, rfl, rfl, rfl, fun hne => absurd rfl hne⟩
  · exact ⟨_, rfl, rfl, rfl, rfl, fun _ => rfl⟩
  · have hactive := (phase_cases s.toEngine).resolve_right hspent
    exact ⟨_, exec_feed_active _ _ hactive, rfl, rfl, rfl, fun hne => absurd rfl hne⟩
  · have hactive := (phase_cases s.toEngine).resolve_right hspent
    exact ⟨_, exec_final_active _ hactive, rfl, rfl, rfl, fun hne => absurd rfl hne⟩

end Sys2Proof.Machine
end

section
/-! The small sigmas bit by bit and linear over xor, and the schedule words that SCHED_LOAD takes from the buffer
(40_compress_schedule.md R100 to R102). -/

namespace Sys2Proof.Machine

/-! ### The schedule word functions -/

theorem rotr_xor (x y : Word) (n : Nat) : rotr (x ^^^ y) n = rotr x n ^^^ rotr y n := by
  refine BitVec.eq_of_getLsbD_eq fun i hi => ?_
  simp only [BitVec.getLsbD_xor, getLsbD_rotr _ _ hi]

theorem shr_xor (x y : Word) (n : Nat) : shr (x ^^^ y) n = shr x n ^^^ shr y n :=
  BitVec.ushiftRight_xor_distrib x y n

theorem sigma0_xor (x y : Word) : sigma0 (x ^^^ y) = sigma0 x ^^^ sigma0 y := by
  simp only [sigma0, rotr_xor, shr_xor]
  ac_rfl

theorem sigma1_xor (x y : Word) : sigma1 (x ^^^ y) = sigma1 x ^^^ sigma1 y := by
  simp only [sigma1, rotr_xor, shr_xor]
  ac_rfl

/-- Two bits rotated in and one shifted in, which is absent in the top three bits (R100). -/
theorem getLsbD_sigma0 (x : Word) {i : Nat} (hi : i < 32) :
    (sigma0 x).getLsbD i = ((x.getLsbD ((i + 7) % 32) ^^ x.getLsbD ((i + 18) % 32)) ^^
      (decide (i + 3 < 32) && x.getLsbD (i + 3))) := by
  rw [sigma0, BitVec.getLsbD_xor, BitVec.getLsbD_xor, getLsbD_rotr _ _ hi, getLsbD_rotr _ _ hi, getLsbD_shr]

/-- Two bits rotated in and one shifted in, which is absent in the top ten bits (R101). -/
theorem getLsbD_sigma1 (x : Word) {i : Nat} (hi : i < 32) :
    (sigma1 x).getLsbD i = ((x.getLsbD ((i + 17) % 32) ^^ x.getLsbD ((i + 19) % 32)) ^^
      (decide (i + 10 < 32) && x.getLsbD (i + 10))) := by
  rw [sigma1, BitVec.getLsbD_xor, BitVec.getLsbD_xor, getLsbD_rotr _ _ hi, getLsbD_rotr _ _ hi, getLsbD_shr]

/-- Settles O26: the bits from those of rotation and shift, the linearity from that of rotation and shift. -/
theorem smallSigmasAreShiftedXors : Obligations.SmallSigmasAreShiftedXors :=
  ⟨fun x _ hi => ⟨getLsbD_sigma0 x hi, getLsbD_sigma1 x hi⟩, fun x y => ⟨sigma0_xor x y, sigma1_xor x y⟩⟩

/-! ### The words loaded from the buffer -/

/-- Four bytes read as one value are the big-endian word of those bytes (20_memory.md R51, R52). -/
theorem memRead_four (m : Memory) (j : Nat) (h : j + 4 ≤ 64) :
    memRead m j 4 h =
      be32 (m.read ⟨j, by omega⟩) (m.read ⟨j + 1, by omega⟩) (m.read ⟨j + 2, by omega⟩) (m.read ⟨j + 3, by omega⟩) := by
  apply BitVec.eq_of_toNat_eq
  have empty : (memRead m j 0 (by omega)).toNat = 0 := rfl
  rw [toNat_be32, memRead_succ_toNat, memRead_succ_toNat, memRead_succ_toNat, memRead_succ_toNat, empty]
  simp only [Nat.add_zero]
  omega

/-- Word `t` of the block the buffer holds, through the bytes of the buffer. -/
theorem blockWord_readBlock (m : Memory) (t : Nat) (ht : t < 16) :
    blockWord (readBlock m) t ht = memRead m (4 * t) 4 (by omega) := by
  simp only [memRead_four, blockWord, readBlock_getElem]

/-- Settles O22: SCHED_LOAD takes the words of the block, and those are four bytes of the buffer each. -/
theorem scheduleLoadReadsTheBuffer : Obligations.ScheduleLoadReadsTheBuffer := by
  intro m t ht
  rw [schedule_getElem_of_lt _ _ ht, blockWord_readBlock]

end Sys2Proof.Machine
end

section
/-! The round of the Compression Core and `compress` (41_compress_round.md R120 to R133). -/

namespace Sys2Proof.Machine

/-! ### The sixty-four rounds -/

/-- Settles O32: `v t` is the working variables after `t` turns of the round loop, which `mix` adds at `t = 64`. -/
theorem compressRunsSixtyFourRounds : Obligations.CompressRunsSixtyFourRounds := by
  intro S M
  refine ⟨fun t => hashRounds (schedule M) (wvInit S) t.val, ?start, ?turn, ?mixed⟩
  case start => rfl
  case turn => exact fun t => hashRounds_succ (schedule M) (wvInit S) t.val t.isLt
  case mixed => rfl

/-! ### The Compression Core at its ports -/

/-- The eight words at their places in a port are all the port's words. -/
theorem eq_unpackState {S : HashState} {p : BitVec 256}
    (h : ∀ i : Fin 8, S[i] = p.extractLsb' (224 - 32 * i.val) 32) : S = unpackState p := by
  refine Vector.ext fun i hi => ?_
  exact (h ⟨i, hi⟩).trans (unpackState_getElem p ⟨i, hi⟩).symm

/-- The sixty-four bytes at their places in a port are all the port's bytes. -/
theorem eq_unpackBlock {M : Block} {p : BitVec 512}
    (h : ∀ j : Fin 64, M[j] = p.extractLsb' (504 - 8 * j.val) 8) : M = unpackBlock p := by
  refine Vector.ext fun j hj => ?_
  exact (h ⟨j, hj⟩).trans (unpackBlock_getElem p ⟨j, hj⟩).symm

/-- Settles O34: the inputs are the unpacked ports, and each word of the result stands at its place in the output. -/
theorem compressPortPacksBigEndian : Obligations.CompressPortPacksBigEndian := by
  intro stateIn block S M hS hM i
  rw [eq_unpackState hS, eq_unpackBlock hM, compressPort, packState_word]

/-! ### The round word functions, bit by bit -/

/-- Three bits rotated in (R120). -/
theorem getLsbD_bigSigma0 (x : Word) {i : Nat} (hi : i < 32) :
    (bigSigma0 x).getLsbD i =
      ((x.getLsbD ((i + 2) % 32) ^^ x.getLsbD ((i + 13) % 32)) ^^ x.getLsbD ((i + 22) % 32)) := by
  simp only [bigSigma0, BitVec.getLsbD_xor, getLsbD_rotr _ _ hi]

/-- Three bits rotated in (R121). -/
theorem getLsbD_bigSigma1 (x : Word) {i : Nat} (hi : i < 32) :
    (bigSigma1 x).getLsbD i =
      ((x.getLsbD ((i + 6) % 32) ^^ x.getLsbD ((i + 11) % 32)) ^^ x.getLsbD ((i + 25) % 32)) := by
  simp only [bigSigma1, BitVec.getLsbD_xor, getLsbD_rotr _ _ hi]

/-- Settles O27: the bits of Σ0 and Σ1 from those of the rotations. -/
theorem bigSigmasAreRotatedXors : Obligations.BigSigmasAreRotatedXors :=
  fun x _ hi => ⟨getLsbD_bigSigma0 x hi, getLsbD_bigSigma1 x hi⟩

/-- The bit of `x` lets the bit of `y` or that of `z` through (R122). -/
theorem getLsbD_ch (x y z : Word) {i : Nat} (hi : i < 32) :
    (ch x y z).getLsbD i = if x.getLsbD i then y.getLsbD i else z.getLsbD i := by
  rw [ch, BitVec.getLsbD_xor, BitVec.getLsbD_and, BitVec.getLsbD_and, BitVec.getLsbD_not]
  cases x.getLsbD i <;> simp [hi]

/-- The xor of the three pairs is the majority of three bits. -/
theorem xor_of_pairs_eq_majority :
    ∀ a b c : Bool, ((a && b) ^^ (a && c) ^^ (b && c)) = decide (2 ≤ a.toNat + b.toNat + c.toNat) := by
  decide

/-- Each bit is the vote of the three (R123). -/
theorem getLsbD_maj (x y z : Word) (i : Nat) :
    (maj x y z).getLsbD i = decide (2 ≤ (x.getLsbD i).toNat + (y.getLsbD i).toNat + (z.getLsbD i).toNat) := by
  simp only [maj, BitVec.getLsbD_xor, BitVec.getLsbD_and, xor_of_pairs_eq_majority]

/-- Settles O28: the bits of Ch and of Maj. -/
theorem chSelectsAndMajVotes : Obligations.ChSelectsAndMajVotes :=
  fun x y z => ⟨fun _ hi => getLsbD_ch x y z hi, fun i _ => getLsbD_maj x y z i⟩

/-! ### The cross-check identities -/

/-- `z` with the bits of `y ^^^ z` flipped where `x` is 1 is the selection by `x`. -/
theorem ch_eq_xor_and_xor (x y z : Word) : ch x y z = z ^^^ (x &&& (y ^^^ z)) := by
  refine BitVec.eq_of_getLsbD_eq fun i hi => ?_
  rw [getLsbD_ch x y z hi, BitVec.getLsbD_xor, BitVec.getLsbD_and, BitVec.getLsbD_xor]
  cases x.getLsbD i
  · simp
  · simp [Bool.xor_left_comm]

/-- At least two of three bits are 1 when the first two are, or the third and one of those. -/
theorem majority_eq_or_and_or :
    ∀ a b c : Bool, decide (2 ≤ a.toNat + b.toNat + c.toNat) = (a && b || c && (a || b)) := by
  decide

theorem maj_eq_or_and_or (x y z : Word) : maj x y z = (x &&& y) ||| (z &&& (x ||| y)) := by
  refine BitVec.eq_of_getLsbD_eq fun i _ => ?_
  rw [getLsbD_maj, majority_eq_or_and_or]
  simp only [BitVec.getLsbD_or, BitVec.getLsbD_and]

/-- Settles O29: both identities, each from the bits of its function. -/
theorem chAndMajIdentities : Obligations.ChAndMajIdentities :=
  fun x y z => ⟨ch_eq_xor_and_xor x y z, maj_eq_or_and_or x y z⟩

/-! ### One round -/

/-- `T1` as the sum of its five terms modulo 2^32 (R125). -/
theorem temp1_eq (v : WorkVars) (k w : Word) :
    temp1 v k w = v.h + bigSigma1 v.e + ch v.e v.f v.g + k + w := rfl

/-- `T2` as the sum of its two terms modulo 2^32 (R126). -/
theorem temp2_eq (v : WorkVars) : temp2 v = bigSigma0 v.a + maj v.a v.b v.c := rfl

/-- Settles O31: the assignments of the round, with `T1` and `T2` written out. -/
theorem roundShiftsTheWorkingVariables : Obligations.RoundShiftsTheWorkingVariables := by
  intro v k w
  simp only [hashRound, temp1_eq, temp2_eq, add32]

end Sys2Proof.Machine
end

section
/-! INIT and FEED, each answered in full (42_engine_feed.md R150 to R152). -/

namespace Sys2Proof.Machine

open Sys2Proof.Safety

/-! ### INIT -/

/-- Presenting any word of the INIT row runs INIT with the word taken. -/
theorem step_present_init {w : CmdWord} (h : opField w = 0b00) (s : State) :
    step (present w s) = exec .init { s with port := none } := by
  rw [step_present, decodeWord_init h]

/-- Settles O3: every word of the row decodes to INIT, which answers with the constructed engine, the engine of reset. -/
theorem initAnswersTheConstructedState : Obligations.InitAnswersTheConstructedState := by
  intro s w hw
  have hinvalid : constructed.digestValid = false := digestValid_of_active _ constructed_phase
  exact ⟨_, exec_init s, step_present_init hw s, reset_toEngine.symm, constructed_H, Memory.read_cleared,
    constructed_fill, constructed_bitcount, constructed_phase, hinvalid, rfl, rfl⟩

/-! ### FEED -/

/-- Presenting the FEED word of a byte runs FEED of that byte with the word taken. -/
theorem step_present_feed (d : Byte) (s : State) :
    step (present (formatC 0b01 d) s) = exec (.feed d) { s with port := none } := by
  rw [step_present, decodeWord_feed (opField_formatC _ _), dataField_formatC]

/-- FEED writes its byte at `fill` and no other byte of the buffer. -/
theorem absorb_read (d : Byte) (e : Engine) (j : Fin 64) :
    (absorb d e).buf.read j = if j = e.fill then d else e.buf.read j := by
  rw [absorb_buf, storeByte_read]

/-- FEED below 63 counts its byte in `fill`. -/
theorem absorb_fill_of_room (d : Byte) (e : Engine) (h : e.fill.val < 63) :
    (absorb d e).fill.val = e.fill.val + 1 := by
  rw [absorb_of_room d e h]

/-- FEED at 63 starts the next block. -/
theorem absorb_fill_of_full (d : Byte) (e : Engine) (h : e.fill.val = 63) : (absorb d e).fill = 0 := by
  rw [absorb_of_full d e h, drain_fill]

/-- The block FEED compresses at 63 is the buffer with the new byte in place. -/
theorem absorb_H_of_full (d : Byte) (e : Engine) (h : e.fill.val = 63) (M : Block)
    (hM : ∀ j : Fin 64, M[j] = if j = e.fill then d else e.buf.read j) : (absorb d e).H = compress e.H M := by
  have hblock : M = readBlock (storeByte d e).buf :=
    eq_readBlock _ M fun j => (hM j).trans (storeByte_read d e j).symm
  rw [absorb_of_full d e h, drain_H, storeByte_H, hblock]

/-- Settles O5: the rejection in phase SPENT; in phase ACTIVE what `absorb` does to each field, split at fill 63. -/
theorem feedStoresAndDrains : Obligations.FeedStoresAndDrains := by
  intro d s
  refine ⟨step_present_feed d s, fun hspent => ?_, fun hactive => ?_⟩
  · rw [exec_feed_spent d s hspent, answered_reject]
  · have hstored (j : Fin 64) := absorb_read d s.toEngine j
    refine ⟨_, exec_feed_active d s hactive, (absorb_phase d _).trans hactive, rfl, rfl,
      (hstored s.fill).trans (if_pos rfl), fun j hj => (hstored j).trans (if_neg hj), fun hroom => ?_, fun hfull => ?_⟩
    · exact ⟨absorb_fill_of_room d _ hroom, absorb_keeps_of_room d _ hroom⟩
    · obtain ⟨hcount, -⟩ := absorb_compresses_of_full d s.toEngine hfull
      exact ⟨absorb_fill_of_full d _ hfull, hcount, absorb_H_of_full d _ hfull⟩

end Sys2Proof.Machine
end

section
/-! FINAL in full: its two padded blocks, and the padding FSM inside it (43_engine_finalize.md R170 to R177). -/

namespace Sys2Proof.Machine

open Sys2Proof.Safety

/-! ### FINAL -/

/-- Presenting any word of the FINAL row runs FINAL with the word taken. -/
theorem step_present_final {w : CmdWord} (h : opField w = 0b10) (s : State) :
    step (present w s) = exec .final { s with port := none } := by
  rw [step_present, decodeWord_final h]

/-- The byte of the length field at offset `j` of the buffer (20_memory.md R54). -/
theorem byteOfCount_lengthField (v : BitCount) (j : Fin 64) (h : 56 ≤ j.val) :
    byteOfCount v (j.val - 56) = v.extractLsb' (8 * (63 - j.val)) 8 := by
  rw [byteOfCount]
  congr 1; omega

/-- The last block composed: the count in bytes 56 .. 63, below them what step 3 left. -/
theorem finalize_read (e : Engine) (j : Fin 64) :
    (finalize e).buf.read j =
      if j.val < 56 then (finalSpill (finalMark (finalCount e))).buf.read j
      else (finalize e).bitcount.extractLsb' (8 * (63 - j.val)) 8 := by
  have hcount : (finalSpill (finalMark (finalCount e))).bitcount = (finalize e).bitcount := by simp [finalize]
  rw [finalize_buf, finalLength_read, hcount]
  by_cases hlow : j.val < 56
  · rw [if_pos hlow, if_neg (by omega)]
  · rw [if_neg hlow, if_pos (by omega), byteOfCount_lengthField _ _ (by omega)]

/-- In the one-block case: tail, marker, zeros, count. -/
theorem finalize_read_of_room (e : Engine) (h : e.fill.val ≤ 55) (j : Fin 64) :
    (finalize e).buf.read j =
      if j.val < e.fill.val then e.buf.read j
      else if j = e.fill then Config.marker
      else if j.val < 56 then 0x00
      else (finalize e).bitcount.extractLsb' (8 * (63 - j.val)) 8 := by
  rw [finalize_read, finalSpill_finalMark_of_room e h, finalMark_finalCount_read]
  by_cases hlow : j.val < 56
  · simp only [hlow, if_true]
  · have hpast : j ≠ e.fill := by rw [Ne, Fin.ext_iff]; omega
    rw [if_neg hlow, if_neg (by omega), if_neg hpast, if_neg hlow]

/-- In the two-block case: zeros, count. -/
theorem finalize_read_of_full (e : Engine) (h : 55 < e.fill.val) (j : Fin 64) :
    (finalize e).buf.read j =
      if j.val < 56 then 0x00 else (finalize e).bitcount.extractLsb' (8 * (63 - j.val)) 8 := by
  rw [finalize_read, finalSpill_finalMark_of_full e h, finalSpillBlock_buf, Memory.read_cleared]

/-- In the one-block case the block left in the buffer is the one compressed. -/
theorem finalize_H_of_room (e : Engine) (h : e.fill.val ≤ 55) (M : Block)
    (hM : ∀ j : Fin 64, M[j] = (finalize e).buf.read j) : (finalize e).H = compress e.H M := by
  rw [finalize_H, finalSpill_finalMark_of_room e h, finalMark_H, finalCount_H, eq_readBlock _ M hM]

/-- In the two-block case the marked block is compressed before the one left in the buffer. -/
theorem finalize_H_of_full (e : Engine) (h : 55 < e.fill.val) (M N : Block)
    (hM : ∀ j : Fin 64, M[j] = (finalMark (finalCount e)).buf.read j)
    (hN : ∀ j : Fin 64, N[j] = (finalize e).buf.read j) : (finalize e).H = compress (compress e.H M) N := by
  rw [finalize_H, finalSpill_finalMark_of_full e h, finalSpillBlock_H, finalMark_H, finalCount_H, eq_readBlock _ M hM,
    eq_readBlock _ N hN]

/-- Settles O7: the rejection in phase SPENT; in phase ACTIVE what `finalize` does to each field, split at fill 55. -/
theorem finalPadsAndCompresses : Obligations.FinalPadsAndCompresses := by
  refine fun s => ⟨fun w hw => step_present_final hw s, fun hspent => ?_, fun hactive => ?_⟩
  · rw [exec_final_spent s hspent, answered_reject]
  · have hphase := finalize_phase s.toEngine
    obtain ⟨hvalid, hdigest⟩ := (digestIsTheSerializedState (s.answered (accept (finalize s.toEngine)))).2 hphase
    refine ⟨_, exec_final_active s hactive, hphase, rfl, rfl, finalize_fill _, finalize_bitcount _, hvalid, hdigest,
      fun hroom M hM => ?_, fun hfull M N hM hN => ?_⟩
    · have hlast (j : Fin 64) := (hM j).trans (finalize_read_of_room _ hroom j).symm
      exact ⟨finalize_H_of_room _ hroom M hlast, fun j => (hlast j).symm⟩
    · have hmarked (j : Fin 64) := (hM j).trans (finalMark_finalCount_read s.toEngine j).symm
      have hlast (j : Fin 64) := (hN j).trans (finalize_read_of_full _ hfull j).symm
      exact ⟨finalize_H_of_full _ hfull M N hmarked hlast, fun j => (hlast j).symm⟩

/-! ### The padding FSM -/

/-- The FSM started at an engine ends in FINAL of it: the spill costs the sixth transition, which is idle without it. -/
theorem padRun_six_padStart (e : Engine) :
    padRun 6 (padStart e) = { point := .ended, n := e.fill, engine := finalize e } := by
  rcases Nat.lt_or_ge 55 e.fill.val with hfull | hroom
  · have hbranch : spills e.fill = true := (spills_iff _).mpr hfull
    simp [padRun, padStart, padStep, hbranch, finalize, finalSpill_finalMark_of_full e hfull]
  · have hbranch : spills e.fill = false := by rw [Bool.eq_false_iff, Ne, spills_iff]; omega
    simp [padRun, padStart, padStep, hbranch, finalize, finalSpill_finalMark_of_room e hroom]

/-- Away from P_MARK the next point depends on the point alone. -/
theorem padStep_point_congr {p q : PadMachine} (h : p.point = q.point) (hmark : p.point ≠ .pMark) :
    (padStep p).point = (padStep q).point := by
  unfold padStep
  rw [← h]
  cases hp : p.point
  case pMark => exact absurd hp hmark
  case ended => exact h
  all_goals rfl

/-- The one branch of the FSM, on the latched fill. -/
theorem padStep_point_pMark {p : PadMachine} (h : p.point = .pMark) :
    (padStep p).point = if p.n.val > 55 then .pSpill else .pLen := by
  simp [padStep, h, spills]

/-- The place of a point in the order in which the FSM can pass through the points. -/
def PadPoint.rank : PadPoint → Nat
  | .pCount => 0
  | .pMark => 1
  | .pSpill => 2
  | .pLen => 3
  | .pLast => 4
  | .pDone => 5
  | .ended => 6

/-- Every transition before the end goes on in the order of the points. -/
theorem rank_lt_rank_padStep (p : PadMachine) (h : p.point ≠ .ended) : p.point.rank < (padStep p).point.rank := by
  cases hp : p.point
  case ended => exact absurd hp h
  case pMark => rw [padStep_point_pMark hp]; split <;> decide
  all_goals simp [padStep, hp, PadPoint.rank]

/-- No run goes back in the order of the points. -/
theorem rank_le_rank_padRun (k : Nat) (p : PadMachine) : p.point.rank ≤ (padRun k p).point.rank := by
  induction k generalizing p with
  | zero => exact Nat.le_refl _
  | succ k ih =>
    have hstep : p.point.rank ≤ (padStep p).point.rank := by
      by_cases hend : p.point = .ended
      · simp [padStep, hend]
      · exact Nat.le_of_lt (rank_lt_rank_padStep p hend)
    exact Nat.le_trans hstep (ih (padStep p))

/-- A point that is not the end is never reached again. -/
theorem padRun_succ_point_ne (p : PadMachine) (k : Nat) (h : p.point ≠ .ended) : (padRun (k + 1) p).point ≠ p.point := by
  intro hback
  have hless := Nat.lt_of_lt_of_le (rank_lt_rank_padStep p h) (rank_le_rank_padRun k (padStep p))
  exact absurd (congrArg PadPoint.rank hback) (Nat.ne_of_gt hless)

/-- Settles O8: the run of six transitions, the next point at and away from P_MARK, and the order of the points. -/
theorem paddingMachineEqualsFinal : Obligations.PaddingMachineEqualsFinal :=
  ⟨fun s hactive => ⟨_, padRun_six_padStart s.toEngine, rfl, finalize_phase _, exec_final_active s hactive⟩,
    fun _ _ => padStep_point_congr, fun _ => padStep_point_pMark, padRun_succ_point_ne⟩

/-- Settles O37: by the cases of one step on the engine; FEED and FINAL have an effect in phase ACTIVE only. -/
theorem digestStandsUntilInitOrReset : Obligations.DigestStandsUntilInitOrReset := by
  intro s t hspent hstep
  have hnotActive : s.phase ≠ .active := by simp [hspent]
  rcases step_engine_cases s t hstep with he | ⟨he, hport⟩ | ⟨hactive, -⟩ | ⟨hactive, -⟩
  · rw [he]
    exact .inl ⟨hspent, rfl⟩
  · rw [he]
    exact .inr ⟨constructed_phase, digest_of_active _ constructed_phase, hport⟩
  · exact absurd hactive hnotActive
  · exact absurd hactive hnotActive

end Sys2Proof.Machine
end

section
/-! FINAL against the whole-message reference, and the stream that hashes a message (43_engine_finalize.md R179, R184). -/

namespace Sys2Proof.Safety

open Sys2Proof.Machine

/-! ### The number of blocks -/

/-- One compression when the length field fits behind the marker, else two (43_engine_finalize.md R179). -/
theorem finalCompressions_eq (n : Fin 64) : finalCompressions n = if n.val ≤ 55 then 1 else 2 := by
  simp only [finalCompressions, spills_iff, ← Nat.not_le, ite_not]

theorem pad_length_eq (m : List Byte) : (pad m).length = 64 * padBlocks m := by
  rw [pad_length, padBlocks_eq, padZeros]
  split <;> omega

/-- Settles O10: the length of the padding, then the count of blocks, split at a tail of 55 bytes. -/
theorem paddedLengthCountsTheCompressions : Obligations.PaddedLengthCountsTheCompressions := by
  refine fun m => ⟨pad_length_eq m, ?compressions, ?quotient⟩
  case compressions => rw [padBlocks_eq, finalCompressions_eq]; split <;> rfl
  case quotient => rw [padBlocks_eq]; split <;> omega

/-! ### The digest -/

/-- A finished engine shows the reference digest of its message. -/
theorem Finished.digest {m : List Byte} {s : State} (h : Finished m s) : s.digest = some (messageDigest m) := by
  rw [digest_of_spent _ h.phase, h.H, messageDigest]

/-- In the supported domain the count is the length in bits, without the wrap (70_reset_and_hazards.md R239). -/
theorem Finished.bitcount_of_supported {m : List Byte} {s : State} (h : Finished m s) (hm : Supported m) :
    s.bitcount.toNat = 8 * m.length := by
  have hfits : 8 * m.length < 2 ^ 64 := by rw [Supported] at hm; omega
  rw [h.bitcount, lengthInBits, BitVec.toNat_ofNat, Nat.mod_eq_of_lt hfits]

/-- FINAL of an engine that holds `m` is accepted and completes `m`. -/
theorem Absorbing.exec_final {m : List Byte} {s : State} (h : Absorbing m s) :
    ∃ t, exec .final s = .next t ∧ Finished m t ∧ t.resp = some .ok :=
  ⟨_, exec_final_active s h.phase, h.finalize rfl, rfl⟩

/-- Settles O9: FINAL is accepted and completes the message, whose digest then stands. -/
theorem finalGivesThePaddedDigest : Obligations.FinalGivesThePaddedDigest := by
  intro m s h
  obtain ⟨t, hexec, hfinished, hresp⟩ := h.exec_final
  exact ⟨t, hexec, hfinished, hfinished.digest, .inr hresp⟩

/-! ### The stream -/

/-- A run whose first event is an encoded command executes it on the state with the word taken, and goes on. -/
theorem runStream_encode (i : Instr) (later : List HostEvent) (s t : State)
    (h : exec i { s with port := none } = .next t) :
    runStream (.command (encode i) :: later) s = runStream later t := by
  refine runStream_cons _ later s t ?_
  rw [step_command _ _ (drive_port _ s), decodeWord_encode]
  exact h

/-- One FEED per byte of `m` extends the message held by `m`. -/
theorem Absorbing.runStream_feeds {m₀ : List Byte} {s : State} (h : Absorbing m₀ s) (m : List Byte) :
    ∃ t, runStream (m.map fun b => .command (encode (.feed b))) s = .next t ∧ Absorbing (m₀ ++ m) t := by
  induction m generalizing m₀ s with
  | nil => exact ⟨s, runStream_nil s, by rwa [List.append_nil]⟩
  | cons d m ih =>
    have taken : Absorbing m₀ { s with port := none } := h.of_sameEngine rfl
    obtain ⟨u, hexec, hu, -⟩ := feedExtendsTheMessage m₀ d _ taken
    obtain ⟨t, hrun, ht⟩ := ih hu
    refine ⟨t, ?_, by rwa [List.append_assoc] at ht⟩
    rw [List.map_cons, runStream_encode _ _ s u hexec, hrun]

/-- Settles O42: INIT holds the empty message, the FEEDs extend it to `m`, FINAL completes it. -/
theorem streamComputesTheReferenceDigest : Obligations.StreamComputesTheReferenceDigest := by
  intro m s
  have hinit : Absorbing [] (State.answered { s with port := none } (accept constructed)) := absorbing_of_constructed rfl
  obtain ⟨u, hfeeds, hu⟩ := hinit.runStream_feeds m
  have taken : Absorbing m { u with port := none } := hu.of_sameEngine rfl
  obtain ⟨t, hexec, hfinished, hresp⟩ := taken.exec_final
  refine ⟨t, ?_, hresp, hfinished, hfinished.digest, hfinished.bitcount_of_supported⟩
  rw [hashStream, List.cons_append, runStream_encode .init _ s _ (exec_init _), runStream_append _ _ _ u hfeeds,
    runStream_encode .final [] u t hexec, runStream_nil]

end Sys2Proof.Safety
end

section
/-! The exceptions: the two rejections, which leave the engine as it was, and nothing that stops the block
(60_exceptions.md R200 to R207). -/

namespace Sys2Proof.Machine

open Sys2Proof.Safety

/-! ### The rejected command -/

/-- A reserved word is answered ERR_ILLEGAL in any phase and only taken (60_exceptions.md R204). -/
theorem step_present_reserved {w : CmdWord} (h : opField w = 0b11) (s : State) :
    step (present w s) = .next { s with resp := some .errIllegal, port := none } := by
  rw [step_present_of_opField, if_pos h]

/-- A FEED or FINAL word in phase SPENT is answered ERR_SPENT and only taken (60_exceptions.md R202). -/
theorem step_present_spent {w : CmdWord} {s : State} (hreserved : opField w ≠ 0b11) (hinit : opField w ≠ 0b00)
    (hspent : s.phase = .spent) : step (present w s) = .next { s with resp := some .errSpent, port := none } := by
  rw [step_present_of_opField, if_neg hreserved, if_neg hinit, if_pos hspent]

/-- A word that is reserved, or spells FEED or FINAL in phase SPENT, changes no more than the response and the port
(60_exceptions.md R203). -/
theorem step_present_rejected {w : CmdWord} {s : State}
    (h : opField w = 0b11 ∨ (s.phase = .spent ∧ opField w ≠ 0b00)) :
    ∃ code, step (present w s) = .next { s with resp := some code, port := none } := by
  by_cases hreserved : opField w = 0b11
  · exact ⟨.errIllegal, step_present_reserved hreserved s⟩
  · obtain ⟨hspent, hinit⟩ := h.resolve_left hreserved
    exact ⟨.errSpent, step_present_spent hreserved hinit hspent⟩

/-- Settles O14, by induction on the stream: each rejected word leaves the engine, hence the phase that rejects the next. -/
theorem rejectedStreamLeavesTheEngine : Obligations.RejectedStreamLeavesTheEngine := by
  intro ws
  induction ws with
  | nil => exact fun s _ => ⟨s, runStream_nil s, rfl, rfl⟩
  | cons w ws ih =>
    intro s h
    obtain ⟨hw, hws⟩ := List.forall_mem_cons.mp h
    obtain ⟨code, hstep⟩ := step_present_rejected hw
    obtain ⟨t, hrun, hengine, hdigest⟩ := ih { s with resp := some code, port := none } hws
    exact ⟨t, (runStream_cons (.command w) _ s _ hstep).trans hrun, hengine, hdigest⟩

/-- Settles O11: at the port and as a command. -/
theorem reservedWordIsRejected : Obligations.ReservedWordIsRejected :=
  fun s _ h => ⟨step_present_reserved h s, exec_reserved s⟩

/-! ### No stop -/

/-- Settles O15: an idle step stays, any other answers the event driven at the port. -/
theorem everyStepAnswersANextState : Obligations.EveryStepAnswersANextState := by
  intro s
  rcases hport : s.port with _ | event
  · exact ⟨s, step_idle s hport⟩
  · have hdriven : drive event s = s := by rw [drive, ← hport]
    obtain ⟨f, hf⟩ := step_drive_answers event
    exact ⟨f s.toEngine, hdriven ▸ hf s⟩

end Sys2Proof.Machine
end

section
/-! Reset, and its agreement with INIT (70_reset_and_hazards.md R230, R231). -/

namespace Sys2Proof.Machine

open Sys2Proof.Safety

/-- Of two answers on the same ports the later one stands, engine and response. -/
theorem answered_answered (s : State) (a b : Answer) : (s.answered a).answered b = s.answered b := rfl

/-- INIT leaves the state an earlier INIT left. -/
theorem exec_init_idempotent {s t : State} (h : exec .init s = .next t) : exec .init t = .next t := by
  rw [exec_init] at h
  cases h
  rw [exec_init, answered_answered]

/-- Settles O2: the driven `rst` is the event the step takes. -/
theorem resetPinTakesAnyStateToReset : Obligations.ResetPinTakesAnyStateToReset :=
  fun s => step_reset _ (drive_port .reset s)

/-- Settles O4: INIT leaves the constructed engine, which is the engine of reset. -/
theorem initAgreesWithResetAndIsIdempotent : Obligations.InitAgreesWithResetAndIsIdempotent := by
  intro s u w hw
  have hinit := exec_init { s with port := none }
  exact ⟨_, State.reset, (step_present_init hw s).trans hinit, resetPinTakesAnyStateToReset u, reset_toEngine.symm,
    exec_init_idempotent hinit⟩

end Sys2Proof.Machine
end
